-- ==== Sys2Proof/Word.lean ====
section
/-! DEFINITION. The word types of the SwiftHash MD5 core (spec rules R5, R6): every value of the data path is an
unsigned 32-bit word, every message and digest byte an unsigned 8-bit value. A `BitVec` is unsigned and wraps, which
is what R136 and R139 ask of a model. -/

namespace Sys2Proof

/-- `u32` of R6: words, state registers, table constants, intermediate sums and responses. -/
abbrev Word := BitVec 32

/-- `u8` of R6: message bytes, digest bytes and character codes. -/
abbrev Byte := BitVec 8

end Sys2Proof
end

