-- ==== Sys2Proof/Config.lean ====
section
/-! DEFINITION. What is fixed for this build of the core (R5), and the one free value of the model. -/

namespace Sys2Proof

/-- The build parameter `HEXCASE` of R5 and R114 (U1, D7). -/
inductive HexCase where
  | upper
  | lower
  deriving DecidableEq, Repr

/-- `HEXCASE = UPPER` for this hardware (R114, D7). -/
def Config.hexCase : HexCase := .upper

/-- What a datapath word holds after a reset event. R25 and U4 call it unspecified: "any value", to be taken neither
as zero nor as IV. `draw` is the number of the reset event, `slot` says which word (0 to 3: A to D; 4 to 19: X[0] to
X[15]; 20: NB). It has no body, so nothing can evaluate it and no proof can lean on a value of it.
DESIGN CHOICE (log entry 1): R25 asks a model to hold "no value"; this one holds an unconstrained value. -/
opaque Config.unspecified (draw slot : Nat) : Word

end Sys2Proof
end

