-- ==== Sys2Proof/Syntax.lean ====
section
/-! DEFINITION. The instructions of the core: one constructor per row of spec/opcode_table.json, in the table's order.
Seven commands of the command port (R47) and the 64 micro-operations of the Compression Engine (R55). -/

namespace Sys2Proof

/-- The operand fields are exactly as wide as the index space they address (R35, R46, R48), so every term is a legal
instruction. The 64 step constructors are the rows `FF.0` to `II.63`: the step index is the whole encoding (R55). -/
inductive Instr where
  /-- R62: begin a digest computation. -/
  | init
  /-- R71: append one message byte. -/
  | pushb (imm8 : Byte)
  /-- R82: pad the message and compress the last block or blocks. -/
  | final
  /-- R109: read state register number `r`. -/
  | rdw (r : BitVec 2)
  /-- R110: read digest byte `j`. -/
  | rdb (j : BitVec 4)
  /-- R115: read hex character `k`. -/
  | rdh (k : BitVec 5)
  /-- R63: read STATUS. -/
  | rds
  | ff0 | ff1 | ff2 | ff3
  | ff4 | ff5 | ff6 | ff7
  | ff8 | ff9 | ff10 | ff11
  | ff12 | ff13 | ff14 | ff15
  | gg16 | gg17 | gg18 | gg19
  | gg20 | gg21 | gg22 | gg23
  | gg24 | gg25 | gg26 | gg27
  | gg28 | gg29 | gg30 | gg31
  | hh32 | hh33 | hh34 | hh35
  | hh36 | hh37 | hh38 | hh39
  | hh40 | hh41 | hh42 | hh43
  | hh44 | hh45 | hh46 | hh47
  | ii48 | ii49 | ii50 | ii51
  | ii52 | ii53 | ii54 | ii55
  | ii56 | ii57 | ii58 | ii59
  | ii60 | ii61 | ii62 | ii63
  deriving DecidableEq, Repr

end Sys2Proof
end

