-- ==== Sys2Proof/WellFormed.lean ====
section
/-! DEFINITION. What is a well-formed command word, and a well-formed line of the assembler notation.
Terms of `Instr` need no check of their own: their operand fields have the exact widths of R46. The checks are on the
two outer forms that can be ill formed: a 16-bit word (R45, R46, R51) and an assembler line (R56, R57). -/

namespace Sys2Proof

/-- The five operand formats of R46. -/
inductive Format where
  | z | b | r | j | k
  deriving DecidableEq, Repr

/-- The width of the right-aligned operand field of a format (R46). -/
def Format.operandWidth : Format → Nat
  | .z => 0
  | .b => 8
  | .r => 2
  | .j => 4
  | .k => 5

/-- The format an opcode uses (R47); none for the unassigned opcodes 0x0 and 0x8 to 0xF. -/
def formatOf (opcode : BitVec 4) : Option Format :=
  match opcode.toNat with
  | 1 => some .z
  | 2 => some .b
  | 3 => some .z
  | 4 => some .r
  | 5 => some .j
  | 6 => some .k
  | 7 => some .z
  | _ => none

/-- A command word is well formed when its opcode is assigned and every operand bit above the operand field of its
format is 0 (R45, R46, R51). -/
def wordWellFormed (w : BitVec 16) : Bool :=
  match formatOf (w.extractLsb' 12 4) with
  | none => false
  | some f => decide (w.extractLsb' 0 12 >>> f.operandWidth = 0#12)

/-- The four register names an assembler operand of RDW may use (R56). -/
inductive AsmReg where
  | A | B | C | D
  deriving DecidableEq, Repr

/-- A line of the assembler notation (R56) or a pseudo-instruction (R57), before its operands are checked.
`pushs` and `digest` take the text itself: the assembler does its UTF-8 encoding (R57, R4). -/
inductive AsmLine where
  | init
  | pushb (n : Nat)
  | pushbChar (c : Char)
  | final
  | rdw (r : Nat)
  | rdwName (r : AsmReg)
  | rdb (j : Nat)
  | rdh (k : Nat)
  | rds
  | word (n : Nat)
  | pushs (text : String)
  | rddig
  | rdhex
  | digest (text : String)
  deriving DecidableEq, Repr

/-- The operand ranges of R56: "An operand out of the stated range is an assembly error, not an encoding." -/
def AsmLine.wellFormed : AsmLine → Bool
  | .pushb n => decide (n ≤ 255)
  | .pushbChar c => decide (c.toNat ≤ 127)
  | .rdw r => decide (r ≤ 3)
  | .rdb j => decide (j ≤ 15)
  | .rdh k => decide (k ≤ 31)
  | .word n => decide (n ≤ 0xFFFF)
  | .init | .final | .rdwName _ | .rds | .pushs _ | .rddig | .rdhex | .digest _ => true

end Sys2Proof
end

