-- ==== Sys2Proof/Decode.lean ====
section
/-! DEFINITION. Decoding and encoding (R45 to R52, R55, R56, R57): the command decoder `Decode` of R49, the step
encoding of R55, the encoder written from the same tables, and the assembler of R56 and R57. -/

namespace Sys2Proof

/-- Why a word is ILLEGAL (R51): its opcode is unassigned, or a must-be-zero operand bit is set. -/
inductive Reject where
  | unassignedOpcode
  | mustBeZeroBitSet
  deriving DecidableEq, Repr

/-- The result of `Decode` (R49): a command, or ILLEGAL with its reason. -/
inductive Decoded where
  | instr (i : Instr)
  | illegal (why : Reject)
  deriving DecidableEq, Repr

/-- `w[15:12]` (R45). -/
def opcodeOf (w : BitVec 16) : BitVec 4 := w.extractLsb' 12 4

/-- Read class (R50): `w[15:12]` is 4, 5, 6 or 7, whether or not the rest of the word is legal. -/
def readClass (w : BitVec 16) : Bool :=
  opcodeOf w == 4#4 || opcodeOf w == 5#4 || opcodeOf w == 6#4 || opcodeOf w == 7#4

/-- The reason a word no pattern of R47 matches is illegal (R51). -/
def rejectReason (w : BitVec 16) : Reject :=
  if opcodeOf w = 0#4 ∨ 8#4 ≤ opcodeOf w then .unassignedOpcode else .mustBeZeroBitSet

/-- `Decode` of R49, in the order of its tests. It does not depend on the machine's state (R52). -/
def decodeCommand (w : BitVec 16) : Decoded :=
  if w = 0x1000#16 then .instr .init
  else if w &&& 0xFF00#16 = 0x2000#16 then .instr (.pushb (w.extractLsb' 0 8))
  else if w = 0x3000#16 then .instr .final
  else if w &&& 0xFFFC#16 = 0x4000#16 then .instr (.rdw (w.extractLsb' 0 2))
  else if w &&& 0xFFF0#16 = 0x5000#16 then .instr (.rdb (w.extractLsb' 0 4))
  else if w &&& 0xFFE0#16 = 0x6000#16 then .instr (.rdh (w.extractLsb' 0 5))
  else if w = 0x7000#16 then .instr .rds
  else .illegal (rejectReason w)

/-! The step encoding (R55): `i[5:4]` is the round, `i[3:0]` the position in it. All 64 codes are used. -/

def ffCodes : Vector Instr 16 :=
  #v[.ff0, .ff1, .ff2, .ff3, .ff4, .ff5, .ff6, .ff7,
     .ff8, .ff9, .ff10, .ff11, .ff12, .ff13, .ff14, .ff15]

def ggCodes : Vector Instr 16 :=
  #v[.gg16, .gg17, .gg18, .gg19, .gg20, .gg21, .gg22, .gg23,
     .gg24, .gg25, .gg26, .gg27, .gg28, .gg29, .gg30, .gg31]

def hhCodes : Vector Instr 16 :=
  #v[.hh32, .hh33, .hh34, .hh35, .hh36, .hh37, .hh38, .hh39,
     .hh40, .hh41, .hh42, .hh43, .hh44, .hh45, .hh46, .hh47]

def iiCodes : Vector Instr 16 :=
  #v[.ii48, .ii49, .ii50, .ii51, .ii52, .ii53, .ii54, .ii55,
     .ii56, .ii57, .ii58, .ii59, .ii60, .ii61, .ii62, .ii63]

/-- `i[5:4]` (R55). -/
def stepRound (i : BitVec 6) : BitVec 2 := i.extractLsb' 4 2

/-- `i[3:0]` (R55). -/
def stepPos (i : BitVec 6) : BitVec 4 := i.extractLsb' 0 4

/-- The micro-operation of a step index (R55). -/
def decodeStep (i : BitVec 6) : Instr :=
  match (stepRound i).toNat with
  | 0 => ffCodes[(stepPos i).toNat]'(stepPos i).isLt
  | 1 => ggCodes[(stepPos i).toNat]'(stepPos i).isLt
  | 2 => hhCodes[(stepPos i).toNat]'(stepPos i).isLt
  | _ => iiCodes[(stepPos i).toNat]'(stepPos i).isLt

/-- The two encodings of the opcode table: a 16-bit command word (R45) and a 6-bit step index (R55). -/
inductive Code where
  | cmd (w : BitVec 16)
  | step (i : BitVec 6)
  deriving DecidableEq, Repr

/-- Decode either form of code. -/
def decode : Code → Decoded
  | .cmd w => decodeCommand w
  | .step i => .instr (decodeStep i)

/-- A code is well formed: a command word by R46 and R51; every step index is one (R55). -/
def Code.wellFormed : Code → Bool
  | .cmd w => wordWellFormed w
  | .step _ => true

/-- The code of an instruction: opcode in bits 15:12, zeros, the operand right-aligned (R45 to R48), or the step index
(R55). -/
def encode : Instr → Code
  | .init => .cmd (1#4 ++ 0#12)
  | .pushb imm8 => .cmd (2#4 ++ 0#4 ++ imm8)
  | .final => .cmd (3#4 ++ 0#12)
  | .rdw r => .cmd (4#4 ++ 0#10 ++ r)
  | .rdb j => .cmd (5#4 ++ 0#8 ++ j)
  | .rdh k => .cmd (6#4 ++ 0#7 ++ k)
  | .rds => .cmd (7#4 ++ 0#12)
  | .ff0 => .step 0#6
  | .ff1 => .step 1#6
  | .ff2 => .step 2#6
  | .ff3 => .step 3#6
  | .ff4 => .step 4#6
  | .ff5 => .step 5#6
  | .ff6 => .step 6#6
  | .ff7 => .step 7#6
  | .ff8 => .step 8#6
  | .ff9 => .step 9#6
  | .ff10 => .step 10#6
  | .ff11 => .step 11#6
  | .ff12 => .step 12#6
  | .ff13 => .step 13#6
  | .ff14 => .step 14#6
  | .ff15 => .step 15#6
  | .gg16 => .step 16#6
  | .gg17 => .step 17#6
  | .gg18 => .step 18#6
  | .gg19 => .step 19#6
  | .gg20 => .step 20#6
  | .gg21 => .step 21#6
  | .gg22 => .step 22#6
  | .gg23 => .step 23#6
  | .gg24 => .step 24#6
  | .gg25 => .step 25#6
  | .gg26 => .step 26#6
  | .gg27 => .step 27#6
  | .gg28 => .step 28#6
  | .gg29 => .step 29#6
  | .gg30 => .step 30#6
  | .gg31 => .step 31#6
  | .hh32 => .step 32#6
  | .hh33 => .step 33#6
  | .hh34 => .step 34#6
  | .hh35 => .step 35#6
  | .hh36 => .step 36#6
  | .hh37 => .step 37#6
  | .hh38 => .step 38#6
  | .hh39 => .step 39#6
  | .hh40 => .step 40#6
  | .hh41 => .step 41#6
  | .hh42 => .step 42#6
  | .hh43 => .step 43#6
  | .hh44 => .step 44#6
  | .hh45 => .step 45#6
  | .hh46 => .step 46#6
  | .hh47 => .step 47#6
  | .ii48 => .step 48#6
  | .ii49 => .step 49#6
  | .ii50 => .step 50#6
  | .ii51 => .step 51#6
  | .ii52 => .step 52#6
  | .ii53 => .step 53#6
  | .ii54 => .step 54#6
  | .ii55 => .step 55#6
  | .ii56 => .step 56#6
  | .ii57 => .step 57#6
  | .ii58 => .step 58#6
  | .ii59 => .step 59#6
  | .ii60 => .step 60#6
  | .ii61 => .step 61#6
  | .ii62 => .step 62#6
  | .ii63 => .step 63#6

/-- The instruction of an opcode-table row from its bits. A row of at most 8 bits is a step row, whose 6-bit code is
the low part of one byte (R55); a wider one is a command word (R45). -/
def decodeTableWord (nbits w : Nat) : Option Instr :=
  if nbits ≤ 8 then
    if w < 64 then some (decodeStep (BitVec.ofNat 6 w)) else none
  else if w < 65536 then
    match decodeCommand (BitVec.ofNat 16 w) with
    | .instr i => some i
    | .illegal _ => none
  else none

/-! ### The assembler (R56, R57) -/

/-- The UTF-8 encoding of a text, "one byte per UTF-8 code unit, in original order" (R57). -/
def utf8Bytes (text : String) : List Byte :=
  (text.toList.flatMap String.utf8EncodeChar).map fun u => u.toBitVec

/-- The register number a register name means (R10, R56). -/
def AsmReg.number : AsmReg → Nat
  | .A => 0
  | .B => 1
  | .C => 2
  | .D => 3

/-- The word column of R56: a base word plus the operand. -/
def asmWord (base n : Nat) : BitVec 16 := BitVec.ofNat 16 (base + n)

/-- `PUSHS` (R57): one PUSHB per byte, in order. -/
def pushsWords (text : String) : List (BitVec 16) :=
  (utf8Bytes text).map fun b => asmWord 0x2000 b.toNat

/-- `RDHEX` (R57): RDH 0 to RDH 31. -/
def rdhexWords : List (BitVec 16) := (List.range 32).map (asmWord 0x6000)

/-- The words of a line (R56) or the expansion of a pseudo-instruction (R57); none for an assembly error. -/
def assemble (l : AsmLine) : Option (List (BitVec 16)) :=
  if l.wellFormed then
    some <| match l with
      | .init => [0x1000#16]
      | .pushb n => [asmWord 0x2000 n]
      | .pushbChar c => [asmWord 0x2000 c.toNat]
      | .final => [0x3000#16]
      | .rdw r => [asmWord 0x4000 r]
      | .rdwName r => [asmWord 0x4000 r.number]
      | .rdb j => [asmWord 0x5000 j]
      | .rdh k => [asmWord 0x6000 k]
      | .rds => [0x7000#16]
      | .word n => [BitVec.ofNat 16 n]
      | .pushs text => pushsWords text
      | .rddig => (List.range 16).map (asmWord 0x5000)
      | .rdhex => rdhexWords
      | .digest text => 0x1000#16 :: pushsWords text ++ 0x3000#16 :: rdhexWords
  else none

/-! ### The text of a program (R56: one command per line, `;` starts a comment, upper-case mnemonics, numbers decimal or
`0x` hexadecimal). What the rule leaves open of the notation is log entry 9. -/

/-- The value of a digit in base 10 or 16. Both letter cases are taken: DESIGN CHOICE (log entry 9). -/
def digitValue (base : Nat) (c : Char) : Option Nat :=
  let n := c.toNat
  let v := if 48 ≤ n ∧ n ≤ 57 then n - 48 else if 65 ≤ n ∧ n ≤ 70 then n - 55 else if 97 ≤ n ∧ n ≤ 102 then n - 87 else 16
  if v < base then some v else none

/-- A number from its digits, most significant first, continuing from `acc`. -/
def readDigits (base : Nat) : List Char → Nat → Option Nat
  | [], acc => some acc
  | c :: rest, acc => (digitValue base c).bind fun v => readDigits base rest (base * acc + v)

/-- A number, decimal or `0x` hexadecimal (R56). -/
def parseNumber : List Char → Option Nat
  | [] => none
  | ['0', 'x'] => none
  | '0' :: 'x' :: digits => readDigits 16 digits 0
  | digits => readDigits 10 digits 0

/-- A line up to its comment. A `;` inside a character or a text operand starts none: DESIGN CHOICE (log
entry 9). -/
def dropComment (inText : Bool) : List Char → List Char
  | [] => []
  | '\'' :: c :: '\'' :: rest =>
    if inText then '\'' :: dropComment inText (c :: '\'' :: rest) else '\'' :: c :: '\'' :: dropComment inText rest
  | c :: rest =>
    if c = ';' ∧ inText = false then []
    else c :: dropComment (if c = '"' then !inText else inText) rest

/-- The blanks of a line: space, tab and carriage return. DESIGN CHOICE (log entry 9): R56 does not say what separates the
parts of a line, nor whether a carriage return may stand in one. -/
def isBlank (c : Char) : Bool := c == ' ' || c == '\t' || c == '\r'

/-- Characters without the blanks at either end. -/
def trimBlanks (cs : List Char) : List Char := ((cs.dropWhile isBlank).reverse.dropWhile isBlank).reverse

/-- A text operand, between double quotes (R57). That it holds no double quote itself is a DESIGN CHOICE (log entry 9). -/
def parseText (cs : List Char) : Option String :=
  match cs with
  | '"' :: rest =>
    match rest.reverse with
    | '"' :: inner => if inner.contains '"' then none else some (String.ofList inner.reverse)
    | _ => none
  | _ => none

/-- The operand of `PUSHB` (R56). -/
def parsePushb (cs : List Char) : Option AsmLine :=
  match cs with
  | ['\'', c, '\''] => some (.pushbChar c)
  | cs => (parseNumber cs).map .pushb

/-- The operand of `RDW` (R56): a number or a register name. -/
def parseRdw (cs : List Char) : Option AsmLine :=
  match cs with
  | ['A'] => some (.rdwName .A)
  | ['B'] => some (.rdwName .B)
  | ['C'] => some (.rdwName .C)
  | ['D'] => some (.rdwName .D)
  | cs => (parseNumber cs).map .rdw

/-- A line from its mnemonic and its operand (R56, R57). -/
def parseCommand (mnemonic operand : List Char) : Option AsmLine :=
  let plain := fun l : AsmLine => if operand = [] then some l else none
  if mnemonic = "INIT".toList then plain .init
  else if mnemonic = "PUSHB".toList then parsePushb operand
  else if mnemonic = "FINAL".toList then plain .final
  else if mnemonic = "RDW".toList then parseRdw operand
  else if mnemonic = "RDB".toList then (parseNumber operand).map .rdb
  else if mnemonic = "RDH".toList then (parseNumber operand).map .rdh
  else if mnemonic = "RDS".toList then plain .rds
  else if mnemonic = ".word".toList then (parseNumber operand).map .word
  else if mnemonic = "PUSHS".toList then (parseText operand).map .pushs
  else if mnemonic = "RDDIG".toList then plain .rddig
  else if mnemonic = "RDHEX".toList then plain .rdhex
  else if mnemonic = "DIGEST".toList then (parseText operand).map .digest
  else none

/-- The words of one line of text; an assembly error gives no result. An empty line has no words: DESIGN CHOICE (log
entry 9). -/
def assembleLine (line : List Char) : Option (List (BitVec 16)) :=
  let code := trimBlanks (dropComment false line)
  if code = [] then some []
  else
    (parseCommand (code.takeWhile fun c => !isBlank c) (trimBlanks (code.dropWhile fun c => !isBlank c))).bind assemble

/-- The lines of a text. A line ends at a line feed or with the text. DESIGN CHOICE (log entry 9): R56 says one command per
line and not what ends a line. -/
def splitLines : List Char → List (List Char)
  | [] => [[]]
  | c :: rest =>
    if c = '\n' then [] :: splitLines rest
    else match splitLines rest with
      | [] => [[c]]
      | line :: lines => (c :: line) :: lines

/-- The words of a program, line after line. -/
def assembleLines : List (List Char) → Option (List (BitVec 16))
  | [] => some []
  | line :: rest => (assembleLine line).bind fun ws => (assembleLines rest).map fun vs => ws ++ vs

/-- The words of a program text (R56, R57). -/
def assembleText (program : String) : Option (List (BitVec 16)) := assembleLines (splitLines program.toList)

end Sys2Proof
end

