-- ==== Sys2Proof/Machine/State.lean ====
section
/-! DEFINITION. The state of the core (R10 to R26) with its three ports (R53), as plain data; the outcomes' reason
types; the state after reset (R25). -/

namespace Sys2Proof.Machine

/-- The four general registers A, B, C, D (R10). Also the `(A, B, C, D)` tuples of R90 and R103. -/
structure Regs where
  a : Word
  b : Word
  c : Word
  d : Word
  deriving DecidableEq, Repr

/-- X[0..15], the block buffer: sixteen words, 64 bytes (R21). -/
abbrev Block := Vector Word 16

/-- The phases of R15. -/
inductive Phase where
  | idle
  | absorb
  | done
  | fault
  deriving DecidableEq, Repr

/-- The fault causes ECODE can hold (R19, R121); value 3 is never produced (U8). -/
inductive Cause where
  | none
  | illegalCmd
  | badPhase
  deriving DecidableEq, Repr

/-- A block operation in progress: the step index of R17 and the saved input state of R23. -/
structure BlockOp where
  index : BitVec 6
  saved : Regs
  deriving DecidableEq, Repr

/-- What the outside world does at the ports (R53): it transfers a command word on CMD, asserts RST once (R133), or
takes the oldest response from RESP. -/
inductive PortEvent where
  | cmd (w : BitVec 16)
  | reset
  | collect
  deriving DecidableEq, Repr

/-- The whole state. -/
structure State where
  /-- X[0..15] (R21). -/
  x : Block
  /-- The byte counter NB, 29 bits (R16). -/
  nb : BitVec 29
  /-- PHASE (R15). -/
  phase : Phase
  /-- LOVF (R18). -/
  lovf : Bool
  /-- ECODE (R19). -/
  ecode : Cause
  /-- The sequencer inside a block (R17, R23); `none` between commands. A command performs its block operations whole
  (R38), so only `State.withFetchWord` on a step row sets this field (log entry 2). -/
  engine : Option BlockOp
  /-- The port events still to come, the next one first (R41, R53; log entry 3). -/
  port : List PortEvent
  /-- The responses given on RESP and not yet taken, oldest first (R41, R53; log entry 4). -/
  resp : List Word
  /-- The model's own: how many reset events have happened, the argument of the free values (log entry 1). -/
  draws : Nat
  /-- A, B, C, D (R10). They stand last so that comparing a compressed state with another one fails on a cheap field
  before any field that holds 64 steps is opened. -/
  regs : Regs
  deriving DecidableEq, Repr

/-- Reasons to stop with a fault: there is none. The core's faults are states it goes on from (R124, R125): fault entry
is a next state with PHASE = FAULT, and every command completes (R104, R137). Safe: no run is cut short. -/
inductive Fault where
  deriving DecidableEq, Repr

/-- Reasons to refuse. -/
inductive Refusal where
  /-- Raised only by an arm of `exec` whose instruction has no meaning yet. Safe: no claim covers such a step. No arm
  of this model raises it. -/
  | notModelled (mnemonic : String)
  deriving DecidableEq, Repr

/-- A, B, C, D after reset event number `draw` (R25, U4: unspecified; log entry 1). -/
def Regs.unspecified (draw : Nat) : Regs :=
  ⟨Config.unspecified draw 0, Config.unspecified draw 1, Config.unspecified draw 2, Config.unspecified draw 3⟩

/-- X after reset event number `draw` (R25, U4: unspecified; log entry 1). -/
def Block.unspecified (draw : Nat) : Block := Vector.ofFn fun k : Fin 16 => Config.unspecified draw (4 + k.val)

/-- NB after reset event number `draw` (R25, U4: unspecified; log entry 1). -/
def nbUnspecified (draw : Nat) : BitVec 29 := (Config.unspecified draw 20).setWidth 29

/-- The state right after power-on reset (R25): PHASE = IDLE, LOVF = 0, ECODE = 0, the datapath unspecified, nothing
waiting at a port. -/
def State.reset : State where
  regs := Regs.unspecified 0
  x := Block.unspecified 0
  nb := nbUnspecified 0
  phase := .idle
  lovf := false
  ecode := .none
  engine := none
  port := []
  resp := []
  draws := 0

end Sys2Proof.Machine
end

