-- ==== Sys2Proof/Machine/Ops.lean ====
section
/-! DEFINITION. The named operations over registers, block buffer, response port and fault state: the primitives of
R7, R8 and R33, fault entry (R124), the one exit from FAULT, which is the reset event (R126, R133), and the dispatch
rule every command goes through (R60, R61). -/

namespace Sys2Proof.Machine

/-! ### Word operators (R7) -/

/-- `add32` (R7, R97): the sum mod 2^32, the carry discarded. -/
def add32 (x y : Word) : Word := x + y

/-- `rotl32(x, s)` (R7, R98), written with the two logical shifts of R7; used for 1 <= s <= 31 only (U13). -/
def rotl32 (x : Word) (s : Nat) : Word := (x <<< s) ||| (x >>> (32 - s))

/-! ### The register file (R8, R10, REG of R30) -/

/-- The names of the four registers. -/
inductive RegName where
  | A | B | C | D
  deriving DecidableEq, Repr

/-- Read a register by name. -/
def Regs.get (g : Regs) : RegName → Word
  | .A => g.a
  | .B => g.b
  | .C => g.c
  | .D => g.d

/-- Write a register by name. -/
def Regs.set (g : Regs) (r : RegName) (v : Word) : Regs :=
  match r with
  | .A => { g with a := v }
  | .B => { g with b := v }
  | .C => { g with c := v }
  | .D => { g with d := v }

/-! ### The block buffer, BUF of R30 (R31, R33) -/

/-- The all-zero buffer INIT and every block operation leave (R21). -/
def Block.zero : Block := Vector.replicate 16 0#32

/-- `X[k]` (R8). -/
def Block.word (x : Block) (k : BitVec 4) : Word := x[k.toNat]'k.isLt

/-- `X[k] <- v` (R8). -/
def Block.setWord (x : Block) (k : BitVec 4) (v : Word) : Block := x.set k.toNat v k.isLt

/-- The word a byte address lies in, `a >> 2` (R31). -/
def wordIndex (a : BitVec 6) : BitVec 4 := a.extractLsb' 2 4

/-- The place of a byte address's lane in its word, `8 * (a mod 4)` (R31). -/
def laneShift (a : BitVec 6) : Nat := 8 * (a.extractLsb' 0 2).toNat

/-- `MemRead(a, 1)` (R33). -/
def memRead1 (x : Block) (a : BitVec 6) : Byte := (x.word (wordIndex a) >>> laneShift a).setWidth 8

/-- `MemRead(4 * k, 4)` (R33). -/
def memRead4 (x : Block) (k : BitVec 4) : Word := x.word k

/-- `MemWrite(a, 1, v)` (R33). -/
def memWrite1 (x : Block) (a : BitVec 6) (v : Byte) : Block :=
  x.setWord (wordIndex a) ((x.word (wordIndex a) &&& ~~~(0xFF#32 <<< laneShift a)) ||| (v.setWidth 32 <<< laneShift a))

/-- `MemWrite(4 * k, 4, v)` (R33). -/
def memWrite4 (x : Block) (k : BitVec 4) (v : Word) : Block := x.setWord k v

/-- The byte store of R71 and R82: OR the byte into its lane, which those rules know to be zero beforehand. -/
def orByte (x : Block) (a : BitVec 6) (v : Byte) : Block :=
  x.setWord (wordIndex a) (x.word (wordIndex a) ||| (v.setWidth 32 <<< laneShift a))

/-! ### The response port (R8, R53, R54) -/

/-- `respond v` (R8): place v on the response port. -/
def respond (v : Word) (s : State) : State := { s with resp := s.resp ++ [v] }

/-- The zero response a read-class word gets when it is ignored or faults (R54, R60). -/
def respondZeroIf (readclass : Bool) (s : State) : State := if readclass then respond 0#32 s else s

/-- The outside world takes the oldest response (R53); with none waiting no transfer happens. -/
def collectResponse (s : State) : State := { s with resp := s.resp.tail }

/-! ### Fault entry and the reset event -/

/-- `raise Fault(code)` (R124): ECODE and PHASE, and nothing else. -/
def raiseFault (code : Cause) (s : State) : State := { s with ecode := code, phase := .fault }

/-- The reset event (R133, R25), the only way out of FAULT (R126): PHASE, LOVF and ECODE at their reset values, the
datapath unspecified anew, any responses not yet collected discarded. -/
def resetEvent (s : State) : State where
  regs := Regs.unspecified (s.draws + 1)
  x := Block.unspecified (s.draws + 1)
  nb := nbUnspecified (s.draws + 1)
  phase := .idle
  lovf := false
  ecode := .none
  engine := none
  port := s.port
  resp := []
  draws := s.draws + 1

/-! ### Dispatch (R60) -/

/-- The part of R60 every decoded command but RDS shares, in the order of its tests: the FAULT lock (R125), the phase
permission (R61), the body. -/
def guarded (readclass : Bool) (permitted : List Phase) (body : State → State) (s : State) :
    Host.Outcome State Fault Refusal :=
  .next <|
    if s.phase = .fault then respondZeroIf readclass s
    else if s.phase ∈ permitted then body s
    else raiseFault .badPhase (respondZeroIf readclass s)

/-- R60 for a word Decode maps to ILLEGAL (R51): the FAULT lock, then cause 1. -/
def illegalCommand (w : BitVec 16) (s : State) : State :=
  if s.phase = .fault then respondZeroIf (readClass w) s
  else raiseFault .illegalCmd (respondZeroIf (readClass w) s)

end Sys2Proof.Machine
end

