-- ==== Sys2Proof/Machine/Operands.lean ====
section
/-! DEFINITION. The operand forms of R46 and R48 and what each indexes (R30): a register number into REG, a digest
byte index into DIG, a hex character index into HEXS, and the buffer address NB[5:0]. All are unsigned fields used as
they stand. -/

namespace Sys2Proof.Machine

/-- The register numbers of R10: A = 0, B = 1, C = 2, D = 3. -/
def regOfNumber (r : BitVec 2) : RegName :=
  match r.toNat with
  | 0 => .A
  | 1 => .B
  | 2 => .C
  | _ => .D

/-- `R[r]` (R8). -/
def Regs.word (g : Regs) (r : BitVec 2) : Word := g.get (regOfNumber r)

/-- DIG index j lies in state register `j >> 2` (R32). -/
def digReg (j : BitVec 4) : BitVec 2 := j.extractLsb' 2 2

/-- DIG index j is the lane at bit `8 * (j mod 4)` of its register (R32). -/
def digShift (j : BitVec 4) : Nat := 8 * (j.extractLsb' 0 2).toNat

/-- HEXS index k renders DIG index `k >> 1` (R32). -/
def hexByteIndex (k : BitVec 5) : BitVec 4 := k.extractLsb' 1 4

/-- HEXS index k renders the high nibble when `k[0] = 0` (R32, R115: high nibble first). -/
def hexHighNibble (k : BitVec 5) : Bool := !k.getLsbD 0

/-- `NB[5:0]`, the byte address where the next byte goes (R16). -/
def bufAddress (nb : BitVec 29) : BitVec 6 := nb.extractLsb' 0 6

/-- The low 32 bits of the bit length, `(NB << 3) mod 2^32` (R16, R80, R82): NB with three zero bits appended. -/
def bitLength (nb : BitVec 29) : Word := nb.setWidth 32 <<< 3

end Sys2Proof.Machine
end

