-- ==== Sys2Proof/Machine/Flags.lean ====
section
/-! DEFINITION. The flags and STATUS: LOVF (R18), the codes of PHASE (R15) and ECODE (R19), and STATUS, which is a view
of the three (R20). There are no carry, overflow or zero flags (R19). -/

namespace Sys2Proof.Machine

/-- The 2-bit value of PHASE (R15). -/
def Phase.code : Phase → BitVec 2
  | .idle => 0#2
  | .absorb => 1#2
  | .done => 2#2
  | .fault => 3#2

/-- The 2-bit value of ECODE (R19, R121). -/
def Cause.code : Cause → BitVec 2
  | .none => 0#2
  | .illegalCmd => 1#2
  | .badPhase => 2#2

/-- LOVF after a PUSHB from counter value `nb`: set by the byte that makes NB wrap, never cleared (R18, R71). -/
def lovfAfterPush (nb : BitVec 29) (lovf : Bool) : Bool := if nb = 0x1FFFFFFF#29 then true else lovf

/-- STATUS (R20, R63): `(ECODE << 3) | (LOVF << 2) | PHASE`, zero-extended. -/
def status (s : State) : Word :=
  (s.ecode.code.setWidth 32 <<< 3) ||| ((if s.lovf then 1#32 else 0#32) <<< 2) ||| s.phase.code.setWidth 32

end Sys2Proof.Machine
end

