-- ==== Sys2Proof/Machine/Tables.lean ====
section
/-! DEFINITION. The constants of the core: IV (R11) and the read-only per-step tables T, S, K (R22, R99 to R101), held
as the literals the spec lists (D20). They are no state: nothing writes them (R140). -/

namespace Sys2Proof.Machine

/-- IV (R11): the initial A, B, C, D of a digest computation. -/
def iv : Regs := ⟨0x67452301#32, 0xefcdab89#32, 0x98badcfe#32, 0x10325476#32⟩

/-- T[0] to T[15] (R99). -/
def tFf : Vector Word 16 :=
  #v[0xd76aa478#32, 0xe8c7b756#32, 0x242070db#32, 0xc1bdceee#32,
     0xf57c0faf#32, 0x4787c62a#32, 0xa8304613#32, 0xfd469501#32,
     0x698098d8#32, 0x8b44f7af#32, 0xffff5bb1#32, 0x895cd7be#32,
     0x6b901122#32, 0xfd987193#32, 0xa679438e#32, 0x49b40821#32]

/-- T[16] to T[31] (R99). -/
def tGg : Vector Word 16 :=
  #v[0xf61e2562#32, 0xc040b340#32, 0x265e5a51#32, 0xe9b6c7aa#32,
     0xd62f105d#32, 0x02441453#32, 0xd8a1e681#32, 0xe7d3fbc8#32,
     0x21e1cde6#32, 0xc33707d6#32, 0xf4d50d87#32, 0x455a14ed#32,
     0xa9e3e905#32, 0xfcefa3f8#32, 0x676f02d9#32, 0x8d2a4c8a#32]

/-- T[32] to T[47] (R99). -/
def tHh : Vector Word 16 :=
  #v[0xfffa3942#32, 0x8771f681#32, 0x6d9d6122#32, 0xfde5380c#32,
     0xa4beea44#32, 0x4bdecfa9#32, 0xf6bb4b60#32, 0xbebfbc70#32,
     0x289b7ec6#32, 0xeaa127fa#32, 0xd4ef3085#32, 0x04881d05#32,
     0xd9d4d039#32, 0xe6db99e5#32, 0x1fa27cf8#32, 0xc4ac5665#32]

/-- T[48] to T[63] (R99). -/
def tIi : Vector Word 16 :=
  #v[0xf4292244#32, 0x432aff97#32, 0xab9423a7#32, 0xfc93a039#32,
     0x655b59c3#32, 0x8f0ccc92#32, 0xffeff47d#32, 0x85845dd1#32,
     0x6fa87e4f#32, 0xfe2ce6e0#32, 0xa3014314#32, 0x4e0811a1#32,
     0xf7537e82#32, 0xbd3af235#32, 0x2ad7d2bb#32, 0xeb86d391#32]

/-- T[i], the additive constant of step i (R99). -/
def tableT (i : BitVec 6) : Word :=
  match (stepRound i).toNat with
  | 0 => tFf[(stepPos i).toNat]'(stepPos i).isLt
  | 1 => tGg[(stepPos i).toNat]'(stepPos i).isLt
  | 2 => tHh[(stepPos i).toNat]'(stepPos i).isLt
  | _ => tIi[(stepPos i).toNat]'(stepPos i).isLt

/-- The rotation set of a round (R100), element `i mod 4`. -/
def rotationSet (round : BitVec 2) : Vector Nat 4 :=
  match round.toNat with
  | 0 => #v[7, 12, 17, 22]
  | 1 => #v[5, 9, 14, 20]
  | 2 => #v[4, 11, 16, 23]
  | _ => #v[6, 10, 15, 21]

/-- `i mod 4`, which selects the roles and, with the round, the rotation (R55, R92, R100). -/
def stepMod4 (i : BitVec 6) : BitVec 2 := i.extractLsb' 0 2

/-- S[i], the rotation amount of step i (R100). -/
def tableS (i : BitVec 6) : Nat := (rotationSet (stepRound i))[(stepMod4 i).toNat]'(stepMod4 i).isLt

/-- The message-word order of a round (the table of R101). -/
def wordOrder (round : BitVec 2) : Vector (BitVec 4) 16 :=
  match round.toNat with
  | 0 => #v[0#4, 1#4, 2#4, 3#4, 4#4, 5#4, 6#4, 7#4, 8#4, 9#4, 10#4, 11#4, 12#4, 13#4, 14#4, 15#4]
  | 1 => #v[1#4, 6#4, 11#4, 0#4, 5#4, 10#4, 15#4, 4#4, 9#4, 14#4, 3#4, 8#4, 13#4, 2#4, 7#4, 12#4]
  | 2 => #v[5#4, 8#4, 11#4, 14#4, 1#4, 4#4, 7#4, 10#4, 13#4, 0#4, 3#4, 6#4, 9#4, 12#4, 15#4, 2#4]
  | _ => #v[0#4, 7#4, 14#4, 5#4, 12#4, 3#4, 10#4, 1#4, 8#4, 15#4, 6#4, 13#4, 4#4, 11#4, 2#4, 9#4]

/-- K[i], the index of the message word step i uses (R101). -/
def tableK (i : BitVec 6) : BitVec 4 := (wordOrder (stepRound i))[(stepPos i).toNat]'(stepPos i).isLt

end Sys2Proof.Machine
end

