-- ==== Sys2Proof/Machine/Engine.lean ====
section
/-! DEFINITION. The Compression Engine (R88 to R105): the round functions, the step, the block operation `Compress`,
the fold over blocks, and the sequencer that performs a block step by step. -/

namespace Sys2Proof.Machine

/-- Round 1, FF (R93). -/
def f1 (b c d : Word) : Word := (b &&& c) ||| (~~~b &&& d)

/-- Round 2, GG (R94). -/
def f2 (b c d : Word) : Word := (b &&& d) ||| (c &&& ~~~d)

/-- Round 3, HH (R95). -/
def f3 (b c d : Word) : Word := b ^^^ c ^^^ d

/-- Round 4, II (R96). -/
def f4 (b c d : Word) : Word := c ^^^ (b ||| ~~~d)

/-- The round function of a round (R91, R55). -/
def roundFn (round : BitVec 2) : Word → Word → Word → Word :=
  match round.toNat with
  | 0 => f1
  | 1 => f2
  | 2 => f3
  | _ => f4

/-- The four registers of a step in their roles (R92). -/
structure Roles where
  a : RegName
  b : RegName
  c : RegName
  d : RegName
  deriving DecidableEq, Repr

/-- The role table of R92, by `i mod 4`. -/
def roles (m : BitVec 2) : Roles :=
  match m.toNat with
  | 0 => ⟨.A, .B, .C, .D⟩
  | 1 => ⟨.D, .A, .B, .C⟩
  | 2 => ⟨.C, .D, .A, .B⟩
  | _ => ⟨.B, .C, .D, .A⟩

/-- The new value of R91: `add32(rotl32(add32(a, f, x, t), s), b)`. -/
def stepValue (f : Word → Word → Word → Word) (a b c d x : Word) (s : Nat) (t : Word) : Word :=
  add32 (rotl32 (add32 (add32 (add32 a (f b c d)) x) t) s) b

/-- `Step(i, (A, B, C, D), X)` (R91): the register in role a gets the new value, the others keep theirs. -/
def engineStep (i : BitVec 6) (g : Regs) (x : Block) : Regs :=
  let ro := roles (stepMod4 i)
  g.set ro.a
    (stepValue (roundFn (stepRound i)) (g.get ro.a) (g.get ro.b) (g.get ro.c) (g.get ro.d)
      (x.word (tableK i)) (tableS i) (tableT i))

/-- The registers after the first n steps of a block, in index order (R90, R105). -/
def runSteps : Nat → Regs → Block → Regs
  | 0, g, _ => g
  | n + 1, g, x => engineStep (BitVec.ofNat 6 n) (runSteps n g x) x

/-- Chaining (R102): the saved input state is added back word by word. -/
def chain (saved g : Regs) : Regs :=
  ⟨add32 g.a saved.a, add32 g.b saved.b, add32 g.c saved.c, add32 g.d saved.d⟩

/-- `Compress` (R90): 64 steps, then chaining. Irreducible for the elaborator only, so that no proof search unrolls the
64 steps by accident; `compress_eq` opens it, the kernel computes it. -/
@[irreducible] def compress (g : Regs) (x : Block) : Regs := chain g (runSteps 64 g x)

/-- Block b of a word sequence: words 16b to 16b + 15 (R103). -/
def blockAt (p : List Word) (b : Nat) : Block := Vector.ofFn fun k : Fin 16 => p.getD (16 * b + k.val) 0#32

/-- The fold of R103 over the first n blocks of P. -/
def foldBlocks (p : List Word) : Nat → Regs
  | 0 => iv
  | n + 1 => compress (foldBlocks p n) (blockAt p n)

/-- `MD5State(P)` (R103), for a word sequence of 16 * B words. -/
def md5State (p : List Word) : Regs := foldBlocks p (p.length / 16)

/-- The block operation as PUSHB and FINAL run it (R71, R82): compress X, then clear it (R21). -/
def blockOp (s : State) : State := { s with regs := compress s.regs s.x, x := Block.zero }

/-- What a step micro-operation does to the machine: one register changes (R91). -/
def stepOp (i : BitVec 6) (s : State) : State := { s with regs := engineStep i s.regs s.x }

/-- After micro-operation `op.index` the sequencer goes to the next one, and after step 63 chains and ends (R105,
R102). -/
def sequence (op : BlockOp) (s : State) : State :=
  if op.index = 63#6 then { s with regs := chain op.saved s.regs, engine := none }
  else { s with engine := some { op with index := op.index + 1#6 } }

end Sys2Proof.Machine
end

