-- ==== Sys2Proof/Machine/Control.lean ====
section
/-! DEFINITION. The control commands INIT (R62) and RDS (R63). -/

namespace Sys2Proof.Machine

/-- The body of INIT (R62). -/
def initBody (s : State) : State :=
  { s with regs := iv, x := Block.zero, nb := 0#29, lovf := false, phase := .absorb }

/-- INIT (R62): permitted in IDLE, ABSORB and DONE (R61). -/
def execInit (s : State) : Host.Outcome State Fault Refusal :=
  guarded false [.idle, .absorb, .done] initBody s

/-- RDS (R63): served in every phase, before the FAULT lock (R60). -/
def execRds (s : State) : Host.Outcome State Fault Refusal :=
  .next (respond (status s) s)

end Sys2Proof.Machine
end

