-- ==== Sys2Proof/Machine/Ff.lean ====
section
/-! DEFINITION. The step family FF, steps 0 to 15 (R93): round function `F1(b, c, d) = (b & c) | (~b & d)`.
Each micro-operation is the step of R91 at its own step index, which selects roles, message word, rotation and constant
(R55, R92, R99 to R101). A step has no phase check, writes no flag and cannot fault (R93). -/

namespace Sys2Proof.Machine

/-- FF.0 (R93). -/
def execFf0 (s : State) : Host.Outcome State Fault Refusal := .next (stepOp 0#6 s)

/-- FF.1 (R93). -/
def execFf1 (s : State) : Host.Outcome State Fault Refusal := .next (stepOp 1#6 s)

/-- FF.2 (R93). -/
def execFf2 (s : State) : Host.Outcome State Fault Refusal := .next (stepOp 2#6 s)

/-- FF.3 (R93). -/
def execFf3 (s : State) : Host.Outcome State Fault Refusal := .next (stepOp 3#6 s)

/-- FF.4 (R93). -/
def execFf4 (s : State) : Host.Outcome State Fault Refusal := .next (stepOp 4#6 s)

/-- FF.5 (R93). -/
def execFf5 (s : State) : Host.Outcome State Fault Refusal := .next (stepOp 5#6 s)

/-- FF.6 (R93). -/
def execFf6 (s : State) : Host.Outcome State Fault Refusal := .next (stepOp 6#6 s)

/-- FF.7 (R93). -/
def execFf7 (s : State) : Host.Outcome State Fault Refusal := .next (stepOp 7#6 s)

/-- FF.8 (R93). -/
def execFf8 (s : State) : Host.Outcome State Fault Refusal := .next (stepOp 8#6 s)

/-- FF.9 (R93). -/
def execFf9 (s : State) : Host.Outcome State Fault Refusal := .next (stepOp 9#6 s)

/-- FF.10 (R93). -/
def execFf10 (s : State) : Host.Outcome State Fault Refusal := .next (stepOp 10#6 s)

/-- FF.11 (R93). -/
def execFf11 (s : State) : Host.Outcome State Fault Refusal := .next (stepOp 11#6 s)

/-- FF.12 (R93). -/
def execFf12 (s : State) : Host.Outcome State Fault Refusal := .next (stepOp 12#6 s)

/-- FF.13 (R93). -/
def execFf13 (s : State) : Host.Outcome State Fault Refusal := .next (stepOp 13#6 s)

/-- FF.14 (R93). -/
def execFf14 (s : State) : Host.Outcome State Fault Refusal := .next (stepOp 14#6 s)

/-- FF.15 (R93). -/
def execFf15 (s : State) : Host.Outcome State Fault Refusal := .next (stepOp 15#6 s)

end Sys2Proof.Machine
end

