-- ==== Sys2Proof/Machine/Gg.lean ====
section
/-! DEFINITION. The step family GG, steps 16 to 31 (R94): round function `F2(b, c, d) = (b & d) | (c & ~d)`.
Each micro-operation is the step of R91 at its own step index, which selects roles, message word, rotation and constant
(R55, R92, R99 to R101). A step has no phase check, writes no flag and cannot fault (R94). -/

namespace Sys2Proof.Machine

/-- GG.16 (R94). -/
def execGg16 (s : State) : Host.Outcome State Fault Refusal := .next (stepOp 16#6 s)

/-- GG.17 (R94). -/
def execGg17 (s : State) : Host.Outcome State Fault Refusal := .next (stepOp 17#6 s)

/-- GG.18 (R94). -/
def execGg18 (s : State) : Host.Outcome State Fault Refusal := .next (stepOp 18#6 s)

/-- GG.19 (R94). -/
def execGg19 (s : State) : Host.Outcome State Fault Refusal := .next (stepOp 19#6 s)

/-- GG.20 (R94). -/
def execGg20 (s : State) : Host.Outcome State Fault Refusal := .next (stepOp 20#6 s)

/-- GG.21 (R94). -/
def execGg21 (s : State) : Host.Outcome State Fault Refusal := .next (stepOp 21#6 s)

/-- GG.22 (R94). -/
def execGg22 (s : State) : Host.Outcome State Fault Refusal := .next (stepOp 22#6 s)

/-- GG.23 (R94). -/
def execGg23 (s : State) : Host.Outcome State Fault Refusal := .next (stepOp 23#6 s)

/-- GG.24 (R94). -/
def execGg24 (s : State) : Host.Outcome State Fault Refusal := .next (stepOp 24#6 s)

/-- GG.25 (R94). -/
def execGg25 (s : State) : Host.Outcome State Fault Refusal := .next (stepOp 25#6 s)

/-- GG.26 (R94). -/
def execGg26 (s : State) : Host.Outcome State Fault Refusal := .next (stepOp 26#6 s)

/-- GG.27 (R94). -/
def execGg27 (s : State) : Host.Outcome State Fault Refusal := .next (stepOp 27#6 s)

/-- GG.28 (R94). -/
def execGg28 (s : State) : Host.Outcome State Fault Refusal := .next (stepOp 28#6 s)

/-- GG.29 (R94). -/
def execGg29 (s : State) : Host.Outcome State Fault Refusal := .next (stepOp 29#6 s)

/-- GG.30 (R94). -/
def execGg30 (s : State) : Host.Outcome State Fault Refusal := .next (stepOp 30#6 s)

/-- GG.31 (R94). -/
def execGg31 (s : State) : Host.Outcome State Fault Refusal := .next (stepOp 31#6 s)

end Sys2Proof.Machine
end

