-- ==== Sys2Proof/Machine/Packer.lean ====
section
/-! DEFINITION. The Word Packer: the function `Pack` (R70) and the command PUSHB (R71). -/

namespace Sys2Proof.Machine

/-- `byte(p)` of R70: the message byte at p, zero-extended; 0 beyond the end. -/
def messageByte (m : List Byte) (p : Nat) : Word := (m.getD p 0#8).setWidth 32

/-- Word i of `Pack(m)` (R70): bytes 4i to 4i + 3, the first in bits 7:0. -/
def packWord (m : List Byte) (i : Nat) : Word :=
  messageByte m (4 * i) + (messageByte m (4 * i + 1) <<< 8) + (messageByte m (4 * i + 2) <<< 16)
    + (messageByte m (4 * i + 3) <<< 24)

/-- `Pack` (R70): ceil(N / 4) words (R73). -/
def pack (m : List Byte) : List Word := (List.range ((m.length + 3) / 4)).map (packWord m)

/-- The first half of R71: store the byte and count it. -/
def storeByte (imm8 : Byte) (s : State) : State :=
  { s with
    x := orByte s.x (bufAddress s.nb) imm8
    lovf := lovfAfterPush s.nb s.lovf
    nb := s.nb + 1#29 }

/-- The body of PUSHB (R71): store the byte; when it filled address 63, run the block operation. -/
def pushBody (imm8 : Byte) (s : State) : State :=
  if bufAddress s.nb = 63#6 then blockOp (storeByte imm8 s) else storeByte imm8 s

/-- PUSHB imm8 (R71): permitted in ABSORB only (R61). -/
def execPushb (imm8 : Byte) (s : State) : Host.Outcome State Fault Refusal :=
  guarded false [.absorb] (pushBody imm8) s

end Sys2Proof.Machine
end

