-- ==== Sys2Proof/Machine/Padder.lean ====
section
/-! DEFINITION. The Padder: the function `Pad` (R78 to R81) and the command FINAL (R82). -/

namespace Sys2Proof.Machine

/-- The index of the low length word for bit length L, `(((L + 64) >> 9) << 4) + 14` (R80). -/
def lengthIndex (L : Nat) : Nat := (((L + 64) >>> 9) <<< 4) + 14

/-- `Pad(W, L)` of R78 with L = 8 * n: zero extension to `idx + 2` words (R81), the terminator (R79), the low length
word (R80). It takes the byte count n, so a bit length that is no multiple of 8 cannot be asked (R85, U12). -/
def pad (w : List Word) (n : Nat) : List Word :=
  let L := 8 * n
  let p := (List.range (lengthIndex L + 2)).map fun i => w.getD i 0#32
  let p := p.set (L >>> 5) (p.getD (L >>> 5) 0#32 ||| (0x80#32 <<< (L % 32)))
  p.set (lengthIndex L) (BitVec.ofNat 32 L)

/-- The terminator of R82: 0x80 OR-ed in at byte address NB[5:0]. -/
def terminate (s : State) : State := { s with x := orByte s.x (bufAddress s.nb) 0x80#8 }

/-- The extra block of R82 and R83, run when there is no room for the length field. -/
def makeRoom (s : State) : State := if 56#6 ≤ bufAddress s.nb then blockOp s else s

/-- The length word of R82, in X[14]. -/
def writeLength (s : State) : State := { s with x := memWrite4 s.x 14#4 (bitLength s.nb) }

/-- The body of FINAL (R82). -/
def finalBody (s : State) : State := { blockOp (writeLength (makeRoom (terminate s))) with phase := .done }

/-- FINAL (R82): permitted in ABSORB only (R61). -/
def execFinal (s : State) : Host.Outcome State Fault Refusal :=
  guarded false [.absorb] finalBody s

end Sys2Proof.Machine
end

