-- ==== Sys2Proof/Machine/Unpacker.lean ====
section
/-! DEFINITION. The Word Unpacker: the function `Unpack` (R108) and the commands RDW (R109) and RDB (R110). -/

namespace Sys2Proof.Machine

/-- `Unpack(A, B, C, D)[j]` (R108). -/
def unpackByte (g : Regs) (j : BitVec 4) : Byte := ((g.word (digReg j) >>> digShift j) &&& 0xFF#32).setWidth 8

/-- `Unpack` (R108): the 16 digest bytes in order. -/
def unpack (g : Regs) : List Byte := (List.range 16).map fun j => unpackByte g (BitVec.ofNat 4 j)

/-- RDW r (R109): permitted in ABSORB and DONE (R61). -/
def execRdw (r : BitVec 2) (s : State) : Host.Outcome State Fault Refusal :=
  guarded true [.absorb, .done] (fun s => respond (s.regs.word r) s) s

/-- RDB j (R110): permitted in DONE only (R61). -/
def execRdb (j : BitVec 4) (s : State) : Host.Outcome State Fault Refusal :=
  guarded true [.done] (fun s => respond ((unpackByte s.regs j).setWidth 32) s) s

end Sys2Proof.Machine
end

