-- ==== Sys2Proof/Machine/Hex.lean ====
section
/-! DEFINITION. The Hex Renderer: the functions `Digit` and `Hex` (R113, R114), the command RDH (R115), and the whole
pipeline of functions they end (R2, R66). -/

namespace Sys2Proof.Machine

/-- `Code(n)` (R114): the character code of a hexadecimal digit in the given case. -/
def digitCode (hexcase : HexCase) (n : BitVec 4) : Byte :=
  if n ≤ 9#4 then 0x30#8 + n.setWidth 8
  else match hexcase with
    | .upper => 0x37#8 + n.setWidth 8
    | .lower => 0x57#8 + n.setWidth 8

/-- `v[7:4]`. -/
def highNibble (v : Byte) : BitVec 4 := v.extractLsb' 4 4

/-- `v[3:0]`. -/
def lowNibble (v : Byte) : BitVec 4 := v.extractLsb' 0 4

/-- `Hex` (R113): two digits a byte, high nibble first, in sequence order. -/
def hexRender (hexcase : HexCase) (bytes : List Byte) : List Byte :=
  bytes.flatMap fun v => [digitCode hexcase (highNibble v), digitCode hexcase (lowNibble v)]

/-- The character RDH k answers with (R115). -/
def hexChar (g : Regs) (k : BitVec 5) : Byte :=
  let v := unpackByte g (hexByteIndex k)
  digitCode Config.hexCase (if hexHighNibble k then highNibble v else lowNibble v)

/-- RDH k (R115): permitted in DONE only (R61). -/
def execRdh (k : BitVec 5) (s : State) : Host.Outcome State Fault Refusal :=
  guarded true [.done] (fun s => respond ((hexChar s.regs k).setWidth 32) s) s

/-- The digest of a message as four state words: `MD5State(Pad(Pack(m), 8 * N))` (R66). -/
def digestState (m : List Byte) : Regs := md5State (pad (pack m) m.length)

/-- D00's `digest` on bytes (R2, R66): the hex string of the digest. -/
def digest (m : List Byte) : List Byte := hexRender Config.hexCase (unpack (digestState m))

end Sys2Proof.Machine
end

