-- ==== Sys2Proof/Machine/Hh.lean ====
section
/-! DEFINITION. The step family HH, steps 32 to 47 (R95): round function `F3(b, c, d) = b ^ c ^ d`.
Each micro-operation is the step of R91 at its own step index, which selects roles, message word, rotation and constant
(R55, R92, R99 to R101). A step has no phase check, writes no flag and cannot fault (R95). -/

namespace Sys2Proof.Machine

/-- HH.32 (R95). -/
def execHh32 (s : State) : Host.Outcome State Fault Refusal := .next (stepOp 32#6 s)

/-- HH.33 (R95). -/
def execHh33 (s : State) : Host.Outcome State Fault Refusal := .next (stepOp 33#6 s)

/-- HH.34 (R95). -/
def execHh34 (s : State) : Host.Outcome State Fault Refusal := .next (stepOp 34#6 s)

/-- HH.35 (R95). -/
def execHh35 (s : State) : Host.Outcome State Fault Refusal := .next (stepOp 35#6 s)

/-- HH.36 (R95). -/
def execHh36 (s : State) : Host.Outcome State Fault Refusal := .next (stepOp 36#6 s)

/-- HH.37 (R95). -/
def execHh37 (s : State) : Host.Outcome State Fault Refusal := .next (stepOp 37#6 s)

/-- HH.38 (R95). -/
def execHh38 (s : State) : Host.Outcome State Fault Refusal := .next (stepOp 38#6 s)

/-- HH.39 (R95). -/
def execHh39 (s : State) : Host.Outcome State Fault Refusal := .next (stepOp 39#6 s)

/-- HH.40 (R95). -/
def execHh40 (s : State) : Host.Outcome State Fault Refusal := .next (stepOp 40#6 s)

/-- HH.41 (R95). -/
def execHh41 (s : State) : Host.Outcome State Fault Refusal := .next (stepOp 41#6 s)

/-- HH.42 (R95). -/
def execHh42 (s : State) : Host.Outcome State Fault Refusal := .next (stepOp 42#6 s)

/-- HH.43 (R95). -/
def execHh43 (s : State) : Host.Outcome State Fault Refusal := .next (stepOp 43#6 s)

/-- HH.44 (R95). -/
def execHh44 (s : State) : Host.Outcome State Fault Refusal := .next (stepOp 44#6 s)

/-- HH.45 (R95). -/
def execHh45 (s : State) : Host.Outcome State Fault Refusal := .next (stepOp 45#6 s)

/-- HH.46 (R95). -/
def execHh46 (s : State) : Host.Outcome State Fault Refusal := .next (stepOp 46#6 s)

/-- HH.47 (R95). -/
def execHh47 (s : State) : Host.Outcome State Fault Refusal := .next (stepOp 47#6 s)

end Sys2Proof.Machine
end

