-- ==== Sys2Proof/Machine/Ii.lean ====
section
/-! DEFINITION. The step family II, steps 48 to 63 (R96): round function `F4(b, c, d) = c ^ (b | ~d)`.
Each micro-operation is the step of R91 at its own step index, which selects roles, message word, rotation and constant
(R55, R92, R99 to R101). A step has no phase check, writes no flag and cannot fault (R96). -/

namespace Sys2Proof.Machine

/-- II.48 (R96). -/
def execIi48 (s : State) : Host.Outcome State Fault Refusal := .next (stepOp 48#6 s)

/-- II.49 (R96). -/
def execIi49 (s : State) : Host.Outcome State Fault Refusal := .next (stepOp 49#6 s)

/-- II.50 (R96). -/
def execIi50 (s : State) : Host.Outcome State Fault Refusal := .next (stepOp 50#6 s)

/-- II.51 (R96). -/
def execIi51 (s : State) : Host.Outcome State Fault Refusal := .next (stepOp 51#6 s)

/-- II.52 (R96). -/
def execIi52 (s : State) : Host.Outcome State Fault Refusal := .next (stepOp 52#6 s)

/-- II.53 (R96). -/
def execIi53 (s : State) : Host.Outcome State Fault Refusal := .next (stepOp 53#6 s)

/-- II.54 (R96). -/
def execIi54 (s : State) : Host.Outcome State Fault Refusal := .next (stepOp 54#6 s)

/-- II.55 (R96). -/
def execIi55 (s : State) : Host.Outcome State Fault Refusal := .next (stepOp 55#6 s)

/-- II.56 (R96). -/
def execIi56 (s : State) : Host.Outcome State Fault Refusal := .next (stepOp 56#6 s)

/-- II.57 (R96). -/
def execIi57 (s : State) : Host.Outcome State Fault Refusal := .next (stepOp 57#6 s)

/-- II.58 (R96). -/
def execIi58 (s : State) : Host.Outcome State Fault Refusal := .next (stepOp 58#6 s)

/-- II.59 (R96). -/
def execIi59 (s : State) : Host.Outcome State Fault Refusal := .next (stepOp 59#6 s)

/-- II.60 (R96). -/
def execIi60 (s : State) : Host.Outcome State Fault Refusal := .next (stepOp 60#6 s)

/-- II.61 (R96). -/
def execIi61 (s : State) : Host.Outcome State Fault Refusal := .next (stepOp 61#6 s)

/-- II.62 (R96). -/
def execIi62 (s : State) : Host.Outcome State Fault Refusal := .next (stepOp 62#6 s)

/-- II.63 (R96). -/
def execIi63 (s : State) : Host.Outcome State Fault Refusal := .next (stepOp 63#6 s)

end Sys2Proof.Machine
end

