-- ==== Sys2Proof/Machine/Fetch.lean ====
section
/-! DEFINITION. Where the next instruction comes from. The core has no program counter and no stored program (R15): it
takes port events in arrival order (R41, R60), and inside a block its sequencer performs the micro-operations in index
order (R105). -/

namespace Sys2Proof.Machine

/-- `Exec(w)` of R60: run the decoded command, or take ILLEGAL_CMD. -/
def runWord (w : BitVec 16) (s : State) : Host.Outcome State Fault Refusal :=
  match decodeCommand w with
  | .instr i => exec i s
  | .illegal _ => .next (illegalCommand w s)

/-- One port event (R53, R133). -/
def runEvent (e : PortEvent) (s : State) : Host.Outcome State Fault Refusal :=
  match e with
  | .cmd w => runWord w s
  | .reset => .next (resetEvent s)
  | .collect => .next (collectResponse s)

/-- One micro-operation of a block in progress (R105): the step of its index, then the sequencer moves on. -/
def runMicro (op : BlockOp) (s : State) : Host.Outcome State Fault Refusal :=
  match exec (decodeStep op.index) s with
  | .next t => .next (sequence op t)
  | .fault r => .fault r
  | .refused r => .refused r

/-- One step of the core. A block in progress is finished before the next port event is taken (R38, R53, R104). With no
event waiting the core waits with all state retained (R129). -/
def advance (s : State) : Host.Outcome State Fault Refusal :=
  match s.engine with
  | some op => runMicro op s
  | none =>
    match s.port with
    | [] => .next s
    | e :: rest => runEvent e { s with port := rest }

/-- Place a command word as the next port event, or a step index (a row of at most 8 bits) as the sequencer's next
micro-operation of a block that started from the present registers. -/
def placeWord (s : State) (nbits w : Nat) : State :=
  if nbits ≤ 8 then { s with engine := some ⟨BitVec.ofNat 6 w, s.regs⟩ }
  else { s with engine := none, port := .cmd (BitVec.ofNat 16 w) :: s.port }

end Sys2Proof.Machine
end

