-- ==== Sys2Proof/Machine/Step.lean ====
section
/-! DEFINITION. One step of the machine, and the placing of a word where the next step takes it. -/

namespace Sys2Proof.Machine

/-- One step (R60, R105): one port event, or one micro-operation of a block in progress. -/
def step (s : State) : Host.Outcome State Fault Refusal := advance s

/-- `s` with one instruction placed where the next step takes it (log entries 2 and 3). -/
def State.withFetchWord (s : State) (nbits w : Nat) : State := placeWord s nbits w

end Sys2Proof.Machine
end

