-- ==== Sys2Proof/Safety.lean ====
section
/-! DEFINITION. The terms claims are stated in: the invariant of the machine, the permission table of R61, the phase
table of R64, and the port events of a message. A run of this core is never cut short: every step answers a next state
(`Fault` has no constructor and no arm refuses), so "safe" is about the states it reaches. -/

namespace Sys2Proof.Machine

/-- What holds of every state a run reaches: ECODE is non-zero exactly in FAULT (R19); while absorbing, every byte
position of the buffer from NB[5:0] on is zero (R21, R34, R72); after FINAL the whole buffer is zero (R21, R82). -/
structure Inv (s : State) : Prop where
  fault_iff : s.phase = .fault ↔ s.ecode ≠ .none
  tail_clear : s.phase = .absorb → ∀ a : BitVec 6, bufAddress s.nb ≤ a → memRead1 s.x a = 0#8
  done_clear : s.phase = .done → s.x = Block.zero

/-- Permitted(d, PHASE) for the seven commands, the table of R61 with its RDS row (a step is no command and asks for no
permission). -/
def permitted (i : Instr) (p : Phase) : Bool :=
  match i, p with
  | .init, .idle | .init, .absorb | .init, .done => true
  | .pushb _, .absorb => true
  | .final, .absorb => true
  | .rdw _, .absorb | .rdw _, .done => true
  | .rdb _, .done => true
  | .rdh _, .done => true
  | .rds, _ => true
  | _, _ => false

/-- `R[n]` by register number (R10): A = 0, B = 1, C = 2, D = 3. -/
def regNumbered (g : Regs) : Nat → Word
  | 0 => g.a
  | 1 => g.b
  | 2 => g.c
  | _ => g.d

/-- The state with A replaced; likewise B, C and D below. -/
def State.withA (s : State) (v : Word) : State := { s with regs := { s.regs with a := v } }
/-- The state with B replaced. -/
def State.withB (s : State) (v : Word) : State := { s with regs := { s.regs with b := v } }
/-- The state with C replaced. -/
def State.withC (s : State) (v : Word) : State := { s with regs := { s.regs with c := v } }
/-- The state with D replaced. -/
def State.withD (s : State) (v : Word) : State := { s with regs := { s.regs with d := v } }

/-- The body R60 performs for a command (R62, R63, R71, R82, R109, R110, R115). A step micro-operation is no command. -/
def commandBody (i : Instr) (s : State) : State :=
  match i with
  | .init => initBody s
  | .pushb imm8 => pushBody imm8 s
  | .final => finalBody s
  | .rdw r => respond (regNumbered s.regs r.toNat) s
  | .rdb j => respond ((unpackByte s.regs j).setWidth 32) s
  | .rdh k => respond ((hexChar s.regs k).setWidth 32) s
  | .rds => respond (status s) s
  | _ => s

/-- `Exec(w)`, line by line as R60 writes it. -/
def execAsWritten (w : BitVec 16) (s : State) : State :=
  if decodeCommand w = .instr .rds then respond (status s) s
  else if s.phase = .fault then (if readClass w then respond 0#32 s else s)
  else
    let answered := if readClass w then respond 0#32 s else s
    match decodeCommand w with
    | .illegal _ => { answered with ecode := .illegalCmd, phase := .fault }
    | .instr i =>
      if permitted i s.phase then commandBody i s
      else { answered with ecode := .badPhase, phase := .fault }

/-- The 311 command words in ascending order, as the word column of R56 writes them. -/
def commandWords : List (BitVec 16) :=
  [0x1000#16] ++ (List.range 256).map (asmWord 0x2000) ++ [0x3000#16] ++ (List.range 4).map (asmWord 0x4000)
    ++ (List.range 16).map (asmWord 0x5000) ++ (List.range 32).map (asmWord 0x6000) ++ [0x7000#16]

/-- The phase after a command word, by the transition table of R64. -/
def nextPhase (p : Phase) (w : BitVec 16) : Phase :=
  match p, decodeCommand w with
  | .fault, _ => .fault
  | _, .illegal _ => .fault
  | _, .instr .init => .absorb
  | .absorb, .instr .final => .done
  | p, .instr i => if permitted i p then p else .fault

/-- Command words as port events. -/
def cmds (ws : List (BitVec 16)) : List PortEvent := ws.map .cmd

/-- `PUSHB b` as a word (R47). -/
def pushWord (b : Byte) : BitVec 16 := 0x20#8 ++ b

/-- The command list of R66 for a message: INIT, one PUSHB a byte, FINAL. -/
def messageWords (m : List Byte) : List (BitVec 16) := 0x1000#16 :: m.map pushWord ++ [0x3000#16]

/-- The state R66 says that list leaves: the digest in A, B, C, D, the buffer clear, the byte count in NB and LOVF. -/
def afterMessage (m : List Byte) (s : State) : State :=
  { s with
    regs := digestState m
    x := Block.zero
    nb := BitVec.ofNat 29 m.length
    phase := .done
    lovf := decide (2 ^ 29 ≤ m.length) }

/-- The rotating form of the step R92 calls equivalent: the tuple (a, b, c, d) becomes (d, v, b, c). -/
def rotatingStep (i : BitVec 6) (g : Regs) (x : Block) : Regs :=
  ⟨g.d,
    stepValue (roundFn (stepRound i)) g.a g.b g.c g.d (x.word (tableK i)) (tableS i) (tableT i),
    g.b, g.c⟩

/-- n rotating steps from step 0 (R92). -/
def rotatingSteps : Nat → Regs → Block → Regs
  | 0, g, _ => g
  | n + 1, g, x => rotatingStep (BitVec.ofNat 6 n) (rotatingSteps n g x) x

end Sys2Proof.Machine
end

