-- ==== Sys2Proof/Certificates/Slice0/Obligations.lean ====
section
/-! DEFINITION. The statements about the core, for the provers. Each docstring names the rule of spec/ it formalises. -/

open Sys2Proof Sys2Proof.Machine

/-! ### Encoding (30_encoding.md) -/

/-- Decode and encode agree on every instruction with every operand (30_encoding.md sections 2 to 4 and 7). -/
def Obligations.DecodeOfEncodeIsIdentity : Prop := ∀ i : Instr, decode (encode i) = .instr i

/-- Every command word and every step index has one meaning: what it decodes to encodes back to it. -/
def Obligations.EncodeOfDecodeIsIdentity : Prop := ∀ (c : Code) (i : Instr), decode c = .instr i → encode i = c

/-- R49: `Decode` is total, the words of each pattern decode to their command, 311 words decode to a command and every
other word is ILLEGAL. -/
def Obligations.DecodeIsTheTableOfCommands : Prop :=
  (decodeCommand 0x1000#16 = .instr .init ∧ decodeCommand 0x3000#16 = .instr .final ∧
    decodeCommand 0x7000#16 = .instr .rds ∧
    (∀ w, w &&& 0xFF00#16 = 0x2000#16 → decodeCommand w = .instr (.pushb (w.extractLsb' 0 8))) ∧
    (∀ w, w &&& 0xFFFC#16 = 0x4000#16 → decodeCommand w = .instr (.rdw (w.extractLsb' 0 2))) ∧
    (∀ w, w &&& 0xFFF0#16 = 0x5000#16 → decodeCommand w = .instr (.rdb (w.extractLsb' 0 4))) ∧
    (∀ w, w &&& 0xFFE0#16 = 0x6000#16 → decodeCommand w = .instr (.rdh (w.extractLsb' 0 5)))) ∧
  (∀ w, w ∉ commandWords → ∃ r, decodeCommand w = .illegal r) ∧
  (∀ w ∈ commandWords, ∃ i, decodeCommand w = .instr i) ∧
  commandWords.Nodup ∧ commandWords.length = 311 ∧ 65536 - commandWords.length = 65225

/-- R51: the ILLEGAL words are those with an unassigned opcode or a must-be-zero operand bit set, and executing one
outside FAULT takes ILLEGAL_CMD: no word is a hint or a no-operation. -/
def Obligations.IllegalWordsAreUnassignedOrOverlong : Prop :=
  (∀ w, (∃ r, decodeCommand w = .illegal r) ↔
    (formatOf (opcodeOf w) = none ∨
      ∃ f, formatOf (opcodeOf w) = some f ∧ w.extractLsb' 0 12 >>> f.operandWidth ≠ 0#12)) ∧
  (∀ w, opcodeOf w = 0#4 ∨ 8#4 ≤ opcodeOf w ↔ formatOf (opcodeOf w) = none) ∧
  (∀ w ∈ [0x0000#16, 0xFFFF#16, 0x1001#16, 0x2100#16, 0x4004#16, 0x5010#16, 0x6020#16, 0x7001#16],
    ∃ r, decodeCommand w = .illegal r) ∧
  (∀ (s : State) (w : BitVec 16) (rest : List PortEvent) (r : Reject),
    s.engine = none → s.phase ≠ .fault → s.port = .cmd w :: rest → decodeCommand w = .illegal r →
    step s = .next { s with
      port := rest
      resp := s.resp ++ (if readClass w then [0#32] else [])
      ecode := .illegalCmd
      phase := .fault })

/-- Words written out from the bit patterns of the opcode table, one for every family, decode to what they stand for
(95_test_vectors.md section 2.8, 30_encoding.md section 7). -/
def Obligations.SampleWordsDecode : Prop :=
  decode (.cmd 0b0001000000000000#16) = .instr .init ∧
  decode (.cmd 0b0010000001100001#16) = .instr (.pushb 0x61#8) ∧
  decode (.cmd 0b0011000000000000#16) = .instr .final ∧
  decode (.cmd 0b0100000000000011#16) = .instr (.rdw 3#2) ∧
  decode (.cmd 0b0101000000001111#16) = .instr (.rdb 15#4) ∧
  decode (.cmd 0b0110000000011111#16) = .instr (.rdh 31#5) ∧
  decode (.cmd 0b0111000000000000#16) = .instr .rds ∧
  decode (.step 0b000000#6) = .instr .ff0 ∧ decode (.step 0b001111#6) = .instr .ff15 ∧
  decode (.step 0b010000#6) = .instr .gg16 ∧ decode (.step 0b011111#6) = .instr .gg31 ∧
  decode (.step 0b100000#6) = .instr .hh32 ∧ decode (.step 0b101111#6) = .instr .hh47 ∧
  decode (.step 0b110000#6) = .instr .ii48 ∧ decode (.step 0b111111#6) = .instr .ii63

/-- The assembler: every line with operands in range assembles to the one word of R56, which decodes to its command;
out-of-range operands are refused (30_encoding.md section 8). -/
def Obligations.AssembledLinesDecode : Prop :=
  (∀ n, n ≤ 255 → ∃ w, assemble (.pushb n) = some [w] ∧ decodeCommand w = .instr (.pushb (BitVec.ofNat 8 n))) ∧
  (∀ n, n ≤ 3 → ∃ w, assemble (.rdw n) = some [w] ∧ decodeCommand w = .instr (.rdw (BitVec.ofNat 2 n))) ∧
  (∀ n, n ≤ 15 → ∃ w, assemble (.rdb n) = some [w] ∧ decodeCommand w = .instr (.rdb (BitVec.ofNat 4 n))) ∧
  (∀ n, n ≤ 31 → ∃ w, assemble (.rdh n) = some [w] ∧ decodeCommand w = .instr (.rdh (BitVec.ofNat 5 n))) ∧
  (∀ c : Char, c.toNat ≤ 127 →
    ∃ w, assemble (.pushbChar c) = some [w] ∧ decodeCommand w = .instr (.pushb (BitVec.ofNat 8 c.toNat))) ∧
  (assemble (.rdwName .A) = some [0x4000#16] ∧ assemble (.rdwName .B) = some [0x4001#16] ∧
    assemble (.rdwName .C) = some [0x4002#16] ∧ assemble (.rdwName .D) = some [0x4003#16]) ∧
  (∀ n, n ≤ 0xFFFF → assemble (.word n) = some [BitVec.ofNat 16 n]) ∧
  assemble .init = some [0x1000#16] ∧ assemble .final = some [0x3000#16] ∧ assemble .rds = some [0x7000#16] ∧
  (∀ n, 255 < n → assemble (.pushb n) = none) ∧ (∀ n, 3 < n → assemble (.rdw n) = none) ∧
  (∀ n, 15 < n → assemble (.rdb n) = none) ∧ (∀ n, 31 < n → assemble (.rdh n) = none) ∧
  (∀ n, 0xFFFF < n → assemble (.word n) = none)

/-! ### Dispatch (40_control.md section 1) -/

/-- A step with a decoded command word at the port is `exec` of that command, on the state with the word taken. -/
def Obligations.StepRunsTheDecodedCommand : Prop :=
  ∀ (s : State) (w : BitVec 16) (rest : List PortEvent) (i : Instr),
    s.engine = none → s.port = .cmd w :: rest → decodeCommand w = .instr i →
    step s = exec i { s with port := rest }

/-- A step inside a block is `exec` of the micro-operation of the step index; then the sequencer moves to the next
index, and after index 63 adds the saved state back and ends the block. The order of the steps and the chaining are the
spec's (43_compression.md section 6). That one machine step is one micro-operation, with the chaining in the step of
index 63, is the model's choice (log entry 2, DESIGN CHOICE): the spec leaves that granularity open. -/
def Obligations.StepRunsTheSequencedMicroOperation : Prop :=
  ∀ (s t : State) (op : BlockOp), s.engine = some op → exec (decodeStep op.index) s = .next t →
    step s = .next (if op.index = 63#6
      then { t with
        engine := none
        regs := ⟨t.regs.a + op.saved.a, t.regs.b + op.saved.b, t.regs.c + op.saved.c, t.regs.d + op.saved.d⟩ }
      else { t with engine := some ⟨op.index + 1#6, op.saved⟩ })

/-- R60: one step on a command word is `Exec(w)` exactly as the rule writes it: RDS first, then the FAULT lock, then
illegal encoding, then the phase permission, then the body. -/
def Obligations.StepIsExecAsWritten : Prop :=
  ∀ (s : State) (w : BitVec 16) (rest : List PortEvent),
    s.engine = none → s.port = .cmd w :: rest → step s = .next (execAsWritten w { s with port := rest })

/-- R61: the permission table. Where it says "no" the command takes BAD_PHASE and does nothing else but answer 0 if it
is a read; where it says "yes" the body runs. -/
def Obligations.PermissionTable : Prop :=
  (∀ s : State, s.phase = .idle ∨ s.phase = .absorb ∨ s.phase = .done → exec .init s = .next (commandBody .init s)) ∧
  (∀ (s : State) (b : Byte),
    (s.phase = .absorb → exec (.pushb b) s = .next (commandBody (.pushb b) s)) ∧
    (s.phase = .idle ∨ s.phase = .done → exec (.pushb b) s = .next { s with ecode := .badPhase, phase := .fault })) ∧
  (∀ s : State,
    (s.phase = .absorb → exec .final s = .next (commandBody .final s)) ∧
    (s.phase = .idle ∨ s.phase = .done → exec .final s = .next { s with ecode := .badPhase, phase := .fault })) ∧
  (∀ (s : State) (r : BitVec 2),
    (s.phase = .absorb ∨ s.phase = .done → exec (.rdw r) s = .next (commandBody (.rdw r) s)) ∧
    (s.phase = .idle →
      exec (.rdw r) s = .next { s with resp := s.resp ++ [0#32], ecode := .badPhase, phase := .fault })) ∧
  (∀ (s : State) (j : BitVec 4),
    (s.phase = .done → exec (.rdb j) s = .next (commandBody (.rdb j) s)) ∧
    (s.phase = .idle ∨ s.phase = .absorb →
      exec (.rdb j) s = .next { s with resp := s.resp ++ [0#32], ecode := .badPhase, phase := .fault })) ∧
  (∀ (s : State) (k : BitVec 5),
    (s.phase = .done → exec (.rdh k) s = .next (commandBody (.rdh k) s)) ∧
    (s.phase = .idle ∨ s.phase = .absorb →
      exec (.rdh k) s = .next { s with resp := s.resp ++ [0#32], ecode := .badPhase, phase := .fault })) ∧
  (∀ s : State, exec .rds s = .next (commandBody .rds s))

/-- Every transition of PHASE (40_control.md section 4, the table): a step on a command word leaves the phase the table
gives, for every phase and every word. -/
def Obligations.PhaseTransitions : Prop :=
  ∀ (s t : State) (w : BitVec 16) (rest : List PortEvent),
    s.engine = none → s.port = .cmd w :: rest → step s = .next t → t.phase = nextPhase s.phase w

/-- R50: in every phase a word with opcode 4 to 7, legal or not, gives exactly one response and any other word none. -/
def Obligations.OneResponsePerReadClassWord : Prop :=
  (∀ w, readClass w = true ↔ opcodeOf w = 4#4 ∨ opcodeOf w = 5#4 ∨ opcodeOf w = 6#4 ∨ opcodeOf w = 7#4) ∧
  ∀ (s : State) (w : BitVec 16) (rest : List PortEvent), s.engine = none → s.port = .cmd w :: rest →
    ∃ t, step s = .next t ∧ t.port = rest ∧
      (readClass w = true → ∃ v, t.resp = s.resp ++ [v]) ∧ (readClass w = false → t.resp = s.resp)

/-! ### The commands -/

/-- R62: INIT begins a digest computation from IDLE, ABSORB or DONE; in FAULT it is ignored; two INITs equal one. -/
def Obligations.InitBeginsADigest : Prop :=
  encode .init = .cmd 0x1000#16 ∧
  (∀ s : State, s.phase = .idle ∨ s.phase = .absorb ∨ s.phase = .done →
    exec .init s = .next { s with
      x := Vector.replicate 16 0#32
      nb := 0#29
      phase := .absorb
      lovf := false
      regs := ⟨0x67452301#32, 0xefcdab89#32, 0x98badcfe#32, 0x10325476#32⟩ }) ∧
  (∀ s : State, s.phase = .fault → exec .init s = .next s) ∧
  (∀ s t : State, exec .init s = .next t → exec .init t = .next t) ∧
  (∀ t : State, exec .init State.reset = .next t →
    t.phase = .absorb ∧ t.nb = 0#29 ∧ exec (.rdw 0#2) t = .next { t with resp := t.resp ++ [0x67452301#32] })

/-- R63: RDS responds STATUS in every phase, changes no other state, and gives the listed values; it is the only command
with an effect in FAULT, where the others change nothing (a read gets its zero response); 0x7001 to 0x7FFF are illegal
words. -/
def Obligations.RdsRespondsStatus : Prop :=
  encode .rds = .cmd 0x7000#16 ∧
  (∀ s : State, exec .rds s = .next { s with resp := s.resp ++
    [(s.ecode.code.setWidth 32 <<< 3) ||| ((if s.lovf then 1#32 else 0#32) <<< 2) ||| s.phase.code.setWidth 32] }) ∧
  (∀ s : State, s.phase = .fault →
    (exec .init s = .next s ∧ exec .final s = .next s ∧ ∀ b, exec (.pushb b) s = .next s) ∧
    (∀ r, exec (.rdw r) s = .next { s with resp := s.resp ++ [0#32] }) ∧
    (∀ j, exec (.rdb j) s = .next { s with resp := s.resp ++ [0#32] }) ∧
    (∀ k, exec (.rdh k) s = .next { s with resp := s.resp ++ [0#32] })) ∧
  (∀ w, opcodeOf w = 7#4 → w ≠ 0x7000#16 → ∃ r, decodeCommand w = .illegal r) ∧
  (∀ s : State,
    (s.phase = .idle → s.lovf = false → s.ecode = .none → status s = 0x00#32) ∧
    (s.phase = .absorb → s.lovf = false → s.ecode = .none → status s = 0x01#32) ∧
    (s.phase = .done → s.lovf = false → s.ecode = .none → status s = 0x02#32) ∧
    (s.phase = .done → s.lovf = true → s.ecode = .none → status s = 0x06#32) ∧
    (s.phase = .fault → s.lovf = false → s.ecode = .illegalCmd → status s = 0x0B#32) ∧
    (s.phase = .fault → s.lovf = true → s.ecode = .illegalCmd → status s = 0x0F#32) ∧
    (s.phase = .fault → s.lovf = false → s.ecode = .badPhase → status s = 0x13#32) ∧
    (s.phase = .fault → s.lovf = true → s.ecode = .badPhase → status s = 0x17#32)) ∧
  status State.reset = 0#32 ∧
  (∀ s t : State, s.phase ≠ .fault → s.ecode = .none → exec .init s = .next t →
    exec .rds t = .next { t with resp := t.resp ++ [1#32] })

/-- R20: STATUS is a view of PHASE, LOVF and ECODE, with zeros above; ECODE 3 does not occur, and on every state that
meets the invariant PHASE = 3 exactly when ECODE is not 0. -/
def Obligations.StatusIsAViewOfPhaseLovfEcode : Prop :=
  (∀ s : State,
    (status s).extractLsb' 0 2 = s.phase.code ∧ (status s).getLsbD 2 = s.lovf ∧
    (status s).extractLsb' 3 2 = s.ecode.code ∧ (status s).extractLsb' 5 27 = 0#27) ∧
  (Phase.idle.code = 0#2 ∧ Phase.absorb.code = 1#2 ∧ Phase.done.code = 2#2 ∧ Phase.fault.code = 3#2) ∧
  (Cause.none.code = 0#2 ∧ Cause.illegalCmd.code = 1#2 ∧ Cause.badPhase.code = 2#2) ∧
  (∀ s : State, Inv s → ((status s).extractLsb' 0 2 = 3#2 ↔ (status s).extractLsb' 3 2 ≠ 0#2)) ∧
  status State.reset = 0#32

/-- R71: PUSHB. In ABSORB it ORs the byte in at byte address NB[5:0], counts it mod 2^29, sets LOVF when NB wraps, and
when the address was 63 runs the block operation and clears X; in IDLE and DONE it takes BAD_PHASE; in FAULT it is
ignored. A zero byte that fills no block changes NB alone. -/
def Obligations.PushbAppendsOneByte : Prop :=
  (∀ b : Byte, encode (.pushb b) = .cmd (BitVec.ofNat 16 (0x2000 + b.toNat))) ∧
  (∀ (s : State) (b : Byte),
    let r := s.nb.toNat % 64
    let k := BitVec.ofNat 4 (r / 4)
    let x1 := s.x.setWord k (s.x.word k ||| (b.setWidth 32 <<< (8 * (r % 4))))
    let nb1 := BitVec.ofNat 29 (s.nb.toNat + 1)
    let lovf1 := if s.nb.toNat = 2 ^ 29 - 1 then true else s.lovf
    (s.phase = .absorb → r ≠ 63 →
      exec (.pushb b) s = .next { s with x := x1, nb := nb1, lovf := lovf1 }) ∧
    (s.phase = .absorb → r = 63 →
      exec (.pushb b) s = .next { s with
        x := Vector.replicate 16 0#32, nb := nb1, lovf := lovf1, regs := compress s.regs x1 }) ∧
    (s.phase = .idle ∨ s.phase = .done →
      exec (.pushb b) s = .next { s with ecode := .badPhase, phase := .fault }) ∧
    (s.phase = .fault → exec (.pushb b) s = .next s) ∧
    (s.phase = .absorb → r ≠ 63 → b = 0#8 → exec (.pushb b) s = .next { s with nb := nb1 })) ∧
  (∀ w, opcodeOf w = 2#4 → w.extractLsb' 8 4 ≠ 0#4 → ∃ r, decodeCommand w = .illegal r) ∧
  (∀ s t u v : State, s.phase ≠ .fault → exec .init s = .next t → exec (.pushb 0x61#8) t = .next u →
    exec (.pushb 0x62#8) u = .next v →
    u.x.word 0#4 = 0x61#32 ∧ u.nb = 1#29 ∧ v.x.word 0#4 = 0x6261#32 ∧ v.nb = 2#29)

/-- The frame of a PUSHB in ABSORB, byte by byte (41_packer.md section 2, 20_memory.md section 2): when it fills no
block it changes the byte at NB[5:0], which on a state that meets the invariant becomes the byte pushed, every other
byte of the buffer and A, B, C, D keep their values; when it fills one, every byte reads 0 after. -/
def Obligations.PushbFrame : Prop :=
  ∀ (s t : State) (b : Byte), s.phase = .absorb → exec (.pushb b) s = .next t →
    t.phase = s.phase ∧ t.ecode = s.ecode ∧ t.engine = s.engine ∧ t.port = s.port ∧ t.resp = s.resp ∧
    t.draws = s.draws ∧
    (bufAddress s.nb ≠ 63#6 →
      t.regs = s.regs ∧ (∀ a, a ≠ bufAddress s.nb → memRead1 t.x a = memRead1 s.x a) ∧
      memRead1 t.x (bufAddress s.nb) = memRead1 s.x (bufAddress s.nb) ||| b ∧
      (Inv s → memRead1 t.x (bufAddress s.nb) = b)) ∧
    (bufAddress s.nb = 63#6 → ∀ a, memRead1 t.x a = 0#8)

/-- R82: FINAL. In ABSORB it ORs the terminator in at byte address NB[5:0]; when that address is 56 or more it
compresses the block and clears it first; then it writes `8 * NB mod 2^32` to X[14], compresses, clears X and goes to
DONE. NB and LOVF do not change. In IDLE and DONE it takes BAD_PHASE; in FAULT it is ignored. After INIT and the bytes
of "abc" it leaves the digest the rule gives. -/
def Obligations.FinalPadsAndCompresses : Prop :=
  encode .final = .cmd 0x3000#16 ∧
  (∀ s : State,
    let r := s.nb.toNat % 64
    let k := BitVec.ofNat 4 (r / 4)
    let x1 := s.x.setWord k (s.x.word k ||| (0x80#32 <<< (8 * (r % 4))))
    let len := BitVec.ofNat 32 (8 * s.nb.toNat)
    let zero : Block := Vector.replicate 16 0#32
    (s.phase = .absorb → r < 56 →
      exec .final s = .next { s with
        x := zero, phase := .done, regs := compress s.regs (x1.setWord 14#4 len) }) ∧
    (s.phase = .absorb → 56 ≤ r →
      exec .final s = .next { s with
        x := zero, phase := .done, regs := compress (compress s.regs x1) (zero.setWord 14#4 len) }) ∧
    (s.phase = .idle ∨ s.phase = .done →
      exec .final s = .next { s with ecode := .badPhase, phase := .fault }) ∧
    (s.phase = .fault → exec .final s = .next s)) ∧
  (∀ w, opcodeOf w = 3#4 → w ≠ 0x3000#16 → ∃ r, decodeCommand w = .illegal r) ∧
  (∀ s t u v w y : State, s.phase ≠ .fault → exec .init s = .next t → exec (.pushb 0x61#8) t = .next u →
    exec (.pushb 0x62#8) u = .next v → exec (.pushb 0x63#8) v = .next w → exec .final w = .next y →
    y.regs = ⟨0x98500190#32, 0xb04fd23c#32, 0x7d3f96d6#32, 0x727fe128#32⟩)

/-- R109: RDW responds the register of the number, in ABSORB and DONE; in IDLE it takes BAD_PHASE and responds 0, in
FAULT it responds 0. -/
def Obligations.RdwRespondsARegister : Prop :=
  (∀ r : BitVec 2, encode (.rdw r) = .cmd (BitVec.ofNat 16 (0x4000 + r.toNat))) ∧
  (∀ (s : State) (r : BitVec 2),
    (s.phase = .absorb ∨ s.phase = .done →
      exec (.rdw r) s = .next { s with resp := s.resp ++ [regNumbered s.regs r.toNat] }) ∧
    (s.phase = .idle →
      exec (.rdw r) s = .next { s with resp := s.resp ++ [0#32], ecode := .badPhase, phase := .fault }) ∧
    (s.phase = .fault → exec (.rdw r) s = .next { s with resp := s.resp ++ [0#32] })) ∧
  (∀ w, opcodeOf w = 4#4 → w.extractLsb' 2 10 ≠ 0#10 → ∃ r, decodeCommand w = .illegal r) ∧
  (∀ s t u : State, s.phase ≠ .fault → exec .init s = .next t → exec .final t = .next u →
    exec (.rdw 0#2) u = .next { u with resp := u.resp ++ [0xd98c1dd4#32] })

/-- R110: RDB responds digest byte j, zero-extended, in DONE only: byte `j mod 4` of register number `j / 4`. -/
def Obligations.RdbRespondsADigestByte : Prop :=
  (∀ j : BitVec 4, encode (.rdb j) = .cmd (BitVec.ofNat 16 (0x5000 + j.toNat))) ∧
  (∀ (s : State) (j : BitVec 4),
    (s.phase = .done →
      exec (.rdb j) s = .next { s with
        resp := s.resp ++ [(regNumbered s.regs (j.toNat / 4) >>> (8 * (j.toNat % 4))) &&& 0xFF#32] }) ∧
    (s.phase = .idle ∨ s.phase = .absorb →
      exec (.rdb j) s = .next { s with resp := s.resp ++ [0#32], ecode := .badPhase, phase := .fault }) ∧
    (s.phase = .fault → exec (.rdb j) s = .next { s with resp := s.resp ++ [0#32] })) ∧
  (∀ w, opcodeOf w = 5#4 → w.extractLsb' 4 8 ≠ 0#8 → ∃ r, decodeCommand w = .illegal r) ∧
  (∀ s t u : State, s.phase ≠ .fault → exec .init s = .next t → exec .final t = .next u →
    exec (.rdb 0#4) u = .next { u with resp := u.resp ++ [0xd4#32] } ∧
    exec (.rdb 15#4) u = .next { u with resp := u.resp ++ [0x7e#32] })

/-- R115: RDH responds the upper-case character code of hex digit k of the digest, in DONE only: the high nibble of
digest byte `k / 2` when k is even and the low nibble when k is odd; byte p of the digest is byte `p mod 4` of register
number `p / 4`. -/
def Obligations.RdhRespondsAHexDigit : Prop :=
  (∀ k : BitVec 5, encode (.rdh k) = .cmd (BitVec.ofNat 16 (0x6000 + k.toNat))) ∧
  (∀ (s : State) (k : BitVec 5),
    let byte := (regNumbered s.regs (k.toNat / 8) >>> (8 * (k.toNat / 2 % 4))) &&& 0xFF#32
    let nibble := if k.toNat % 2 = 0 then byte >>> 4 else byte &&& 0xF#32
    (s.phase = .done →
      exec (.rdh k) s = .next { s with
        resp := s.resp ++ [if nibble ≤ 9#32 then 0x30#32 + nibble else 0x37#32 + nibble] }) ∧
    (s.phase = .idle ∨ s.phase = .absorb →
      exec (.rdh k) s = .next { s with resp := s.resp ++ [0#32], ecode := .badPhase, phase := .fault }) ∧
    (s.phase = .fault → exec (.rdh k) s = .next { s with resp := s.resp ++ [0#32] })) ∧
  (∀ w, opcodeOf w = 6#4 → w.extractLsb' 5 7 ≠ 0#7 → ∃ r, decodeCommand w = .illegal r) ∧
  (∀ s t u : State, s.phase ≠ .fault → exec .init s = .next t → exec .final t = .next u →
    exec (.rdh 0#5) u = .next { u with resp := u.resp ++ [0x44#32] } ∧
    exec (.rdh 1#5) u = .next { u with resp := u.resp ++ [0x34#32] } ∧
    exec (.rdh 31#5) u = .next { u with resp := u.resp ++ [0x45#32] } ∧
    ∀ k : BitVec 5, exec (.rdh k) u = .next { u with
      resp := u.resp ++ [((utf8Bytes "D41D8CD98F00B204E9800998ECF8427E").getD k.toNat 0#8).setWidth 32] })

/-- R37: a permitted RDW, RDB, RDH or RDS changes no state but the response port, and repeated it returns the same
value. -/
def Obligations.ReadsHaveNoSideEffect : Prop :=
  ∀ (i : Instr) (s : State),
    ((∃ r, i = .rdw r) ∨ (∃ j, i = .rdb j) ∨ (∃ k, i = .rdh k) ∨ i = .rds) → permitted i s.phase = true →
    ∃ v, exec i s = .next { s with resp := s.resp ++ [v] } ∧
      ∀ q : List Word, exec i { s with resp := q } = .next { s with resp := q ++ [v] }

/-! ### The Compression Engine (43_compression.md) -/

/-- R93 (with R91, R92 and the step table): each of the sixteen FF micro-operations completes from every state, writes
the register in role a with `rotl32(a + f + X[K] + T, S) + b`, and changes nothing else; the corner cases and the
example of the rule. The sentence the rule marks "[derived]" is stated apart, in RoundFunctionIdentities. -/
def Obligations.FfStepsWriteOneRegister : Prop :=
  let f := fun (b c d : Word) => (b &&& c) ||| (~~~b &&& d)
  let v := fun (a b c d x : Word) (n : Nat) (k : Word) => (a + f b c d + x + k).rotateLeft n + b
  (∀ s : State,
    exec .ff0 s = .next (s.withA (v s.regs.a s.regs.b s.regs.c s.regs.d (s.x.word 0#4) 7 0xd76aa478#32)) ∧
    exec .ff1 s = .next (s.withD (v s.regs.d s.regs.a s.regs.b s.regs.c (s.x.word 1#4) 12 0xe8c7b756#32)) ∧
    exec .ff2 s = .next (s.withC (v s.regs.c s.regs.d s.regs.a s.regs.b (s.x.word 2#4) 17 0x242070db#32)) ∧
    exec .ff3 s = .next (s.withB (v s.regs.b s.regs.c s.regs.d s.regs.a (s.x.word 3#4) 22 0xc1bdceee#32)) ∧
    exec .ff4 s = .next (s.withA (v s.regs.a s.regs.b s.regs.c s.regs.d (s.x.word 4#4) 7 0xf57c0faf#32)) ∧
    exec .ff5 s = .next (s.withD (v s.regs.d s.regs.a s.regs.b s.regs.c (s.x.word 5#4) 12 0x4787c62a#32)) ∧
    exec .ff6 s = .next (s.withC (v s.regs.c s.regs.d s.regs.a s.regs.b (s.x.word 6#4) 17 0xa8304613#32)) ∧
    exec .ff7 s = .next (s.withB (v s.regs.b s.regs.c s.regs.d s.regs.a (s.x.word 7#4) 22 0xfd469501#32)) ∧
    exec .ff8 s = .next (s.withA (v s.regs.a s.regs.b s.regs.c s.regs.d (s.x.word 8#4) 7 0x698098d8#32)) ∧
    exec .ff9 s = .next (s.withD (v s.regs.d s.regs.a s.regs.b s.regs.c (s.x.word 9#4) 12 0x8b44f7af#32)) ∧
    exec .ff10 s = .next (s.withC (v s.regs.c s.regs.d s.regs.a s.regs.b (s.x.word 10#4) 17 0xffff5bb1#32)) ∧
    exec .ff11 s = .next (s.withB (v s.regs.b s.regs.c s.regs.d s.regs.a (s.x.word 11#4) 22 0x895cd7be#32)) ∧
    exec .ff12 s = .next (s.withA (v s.regs.a s.regs.b s.regs.c s.regs.d (s.x.word 12#4) 7 0x6b901122#32)) ∧
    exec .ff13 s = .next (s.withD (v s.regs.d s.regs.a s.regs.b s.regs.c (s.x.word 13#4) 12 0xfd987193#32)) ∧
    exec .ff14 s = .next (s.withC (v s.regs.c s.regs.d s.regs.a s.regs.b (s.x.word 14#4) 17 0xa679438e#32)) ∧
    exec .ff15 s = .next (s.withB (v s.regs.b s.regs.c s.regs.d s.regs.a (s.x.word 15#4) 22 0x49b40821#32))) ∧
    (∀ c d, f 0#32 c d = d) ∧ (∀ c d, f 0xFFFFFFFF#32 c d = c) ∧
    f 0xefcdab89#32 0x98badcfe#32 0x10325476#32 = 0x98badcfe#32 ∧
    0x67452301#32 + 0x98badcfe#32 + 0x80#32 + 0xd76aa478#32 = 0xd76aa4f7#32 ∧
    (0xd76aa4f7#32).rotateLeft 7 = 0xb5527beb#32 ∧
    v 0x67452301#32 0xefcdab89#32 0x98badcfe#32 0x10325476#32 0x80#32 7 0xd76aa478#32 = 0xa5202774#32

/-- R94 (with R91, R92 and the step table): each of the sixteen GG micro-operations completes from every state, writes
the register in role a with `rotl32(a + f + X[K] + T, S) + b`, and changes nothing else; the corner cases and the
example of the rule. The sentence the rule marks "[derived]" is stated apart, in RoundFunctionIdentities. -/
def Obligations.GgStepsWriteOneRegister : Prop :=
  let f := fun (b c d : Word) => (b &&& d) ||| (c &&& ~~~d)
  let v := fun (a b c d x : Word) (n : Nat) (k : Word) => (a + f b c d + x + k).rotateLeft n + b
  (∀ s : State,
    exec .gg16 s = .next (s.withA (v s.regs.a s.regs.b s.regs.c s.regs.d (s.x.word 1#4) 5 0xf61e2562#32)) ∧
    exec .gg17 s = .next (s.withD (v s.regs.d s.regs.a s.regs.b s.regs.c (s.x.word 6#4) 9 0xc040b340#32)) ∧
    exec .gg18 s = .next (s.withC (v s.regs.c s.regs.d s.regs.a s.regs.b (s.x.word 11#4) 14 0x265e5a51#32)) ∧
    exec .gg19 s = .next (s.withB (v s.regs.b s.regs.c s.regs.d s.regs.a (s.x.word 0#4) 20 0xe9b6c7aa#32)) ∧
    exec .gg20 s = .next (s.withA (v s.regs.a s.regs.b s.regs.c s.regs.d (s.x.word 5#4) 5 0xd62f105d#32)) ∧
    exec .gg21 s = .next (s.withD (v s.regs.d s.regs.a s.regs.b s.regs.c (s.x.word 10#4) 9 0x02441453#32)) ∧
    exec .gg22 s = .next (s.withC (v s.regs.c s.regs.d s.regs.a s.regs.b (s.x.word 15#4) 14 0xd8a1e681#32)) ∧
    exec .gg23 s = .next (s.withB (v s.regs.b s.regs.c s.regs.d s.regs.a (s.x.word 4#4) 20 0xe7d3fbc8#32)) ∧
    exec .gg24 s = .next (s.withA (v s.regs.a s.regs.b s.regs.c s.regs.d (s.x.word 9#4) 5 0x21e1cde6#32)) ∧
    exec .gg25 s = .next (s.withD (v s.regs.d s.regs.a s.regs.b s.regs.c (s.x.word 14#4) 9 0xc33707d6#32)) ∧
    exec .gg26 s = .next (s.withC (v s.regs.c s.regs.d s.regs.a s.regs.b (s.x.word 3#4) 14 0xf4d50d87#32)) ∧
    exec .gg27 s = .next (s.withB (v s.regs.b s.regs.c s.regs.d s.regs.a (s.x.word 8#4) 20 0x455a14ed#32)) ∧
    exec .gg28 s = .next (s.withA (v s.regs.a s.regs.b s.regs.c s.regs.d (s.x.word 13#4) 5 0xa9e3e905#32)) ∧
    exec .gg29 s = .next (s.withD (v s.regs.d s.regs.a s.regs.b s.regs.c (s.x.word 2#4) 9 0xfcefa3f8#32)) ∧
    exec .gg30 s = .next (s.withC (v s.regs.c s.regs.d s.regs.a s.regs.b (s.x.word 7#4) 14 0x676f02d9#32)) ∧
    exec .gg31 s = .next (s.withB (v s.regs.b s.regs.c s.regs.d s.regs.a (s.x.word 12#4) 20 0x8d2a4c8a#32))) ∧
    (∀ b c, f b c 0#32 = c) ∧ (∀ b c, f b c 0xFFFFFFFF#32 = b) ∧
    f 0xd6819c6a#32 0x5aa53f75#32 0x374943a7#32 = 0x5ea53c72#32 ∧
    0xf56c7cf1#32 + 0x5ea53c72#32 + 0#32 + 0xf61e2562#32 = 0x4a2fdec5#32 ∧
    v 0xf56c7cf1#32 0xd6819c6a#32 0x5aa53f75#32 0x374943a7#32 0#32 5 0xf61e2562#32 = 0x1c7d7513#32

/-- R95 (with R91, R92 and the step table): each of the sixteen HH micro-operations completes from every state,
writes the register in role a with `rotl32(a + f + X[K] + T, S) + b`, and changes nothing else; the corner cases and the
example of the rule. -/
def Obligations.HhStepsWriteOneRegister : Prop :=
  let f := fun (b c d : Word) => b ^^^ c ^^^ d
  let v := fun (a b c d x : Word) (n : Nat) (k : Word) => (a + f b c d + x + k).rotateLeft n + b
  (∀ s : State,
    exec .hh32 s = .next (s.withA (v s.regs.a s.regs.b s.regs.c s.regs.d (s.x.word 5#4) 4 0xfffa3942#32)) ∧
    exec .hh33 s = .next (s.withD (v s.regs.d s.regs.a s.regs.b s.regs.c (s.x.word 8#4) 11 0x8771f681#32)) ∧
    exec .hh34 s = .next (s.withC (v s.regs.c s.regs.d s.regs.a s.regs.b (s.x.word 11#4) 16 0x6d9d6122#32)) ∧
    exec .hh35 s = .next (s.withB (v s.regs.b s.regs.c s.regs.d s.regs.a (s.x.word 14#4) 23 0xfde5380c#32)) ∧
    exec .hh36 s = .next (s.withA (v s.regs.a s.regs.b s.regs.c s.regs.d (s.x.word 1#4) 4 0xa4beea44#32)) ∧
    exec .hh37 s = .next (s.withD (v s.regs.d s.regs.a s.regs.b s.regs.c (s.x.word 4#4) 11 0x4bdecfa9#32)) ∧
    exec .hh38 s = .next (s.withC (v s.regs.c s.regs.d s.regs.a s.regs.b (s.x.word 7#4) 16 0xf6bb4b60#32)) ∧
    exec .hh39 s = .next (s.withB (v s.regs.b s.regs.c s.regs.d s.regs.a (s.x.word 10#4) 23 0xbebfbc70#32)) ∧
    exec .hh40 s = .next (s.withA (v s.regs.a s.regs.b s.regs.c s.regs.d (s.x.word 13#4) 4 0x289b7ec6#32)) ∧
    exec .hh41 s = .next (s.withD (v s.regs.d s.regs.a s.regs.b s.regs.c (s.x.word 0#4) 11 0xeaa127fa#32)) ∧
    exec .hh42 s = .next (s.withC (v s.regs.c s.regs.d s.regs.a s.regs.b (s.x.word 3#4) 16 0xd4ef3085#32)) ∧
    exec .hh43 s = .next (s.withB (v s.regs.b s.regs.c s.regs.d s.regs.a (s.x.word 6#4) 23 0x04881d05#32)) ∧
    exec .hh44 s = .next (s.withA (v s.regs.a s.regs.b s.regs.c s.regs.d (s.x.word 9#4) 4 0xd9d4d039#32)) ∧
    exec .hh45 s = .next (s.withD (v s.regs.d s.regs.a s.regs.b s.regs.c (s.x.word 12#4) 11 0xe6db99e5#32)) ∧
    exec .hh46 s = .next (s.withC (v s.regs.c s.regs.d s.regs.a s.regs.b (s.x.word 15#4) 16 0x1fa27cf8#32)) ∧
    exec .hh47 s = .next (s.withB (v s.regs.b s.regs.c s.regs.d s.regs.a (s.x.word 2#4) 23 0xc4ac5665#32))) ∧
    (∀ b c d, f b c d = f c b d) ∧ (∀ b c d, f b c d = f b d c) ∧ (∀ b d, f b b d = d) ∧
    f 0xa2205f1f#32 0x1c31c384#32 0xae7813db#32 = 0x10698f40#32 ∧
    0x13707036#32 + 0x10698f40#32 + 0#32 + 0xfffa3942#32 = 0x23d438b8#32 ∧
    v 0x13707036#32 0xa2205f1f#32 0x1c31c384#32 0xae7813db#32 0#32 4 0xfffa3942#32 = 0xdf63eaa1#32

/-- R96 (with R91, R92 and the step table): each of the sixteen II micro-operations completes from every state,
writes the register in role a with `rotl32(a + f + X[K] + T, S) + b`, and changes nothing else; the corner cases and the
example of the rule. -/
def Obligations.IiStepsWriteOneRegister : Prop :=
  let f := fun (b c d : Word) => c ^^^ (b ||| ~~~d)
  let v := fun (a b c d x : Word) (n : Nat) (k : Word) => (a + f b c d + x + k).rotateLeft n + b
  (∀ s : State,
    exec .ii48 s = .next (s.withA (v s.regs.a s.regs.b s.regs.c s.regs.d (s.x.word 0#4) 6 0xf4292244#32)) ∧
    exec .ii49 s = .next (s.withD (v s.regs.d s.regs.a s.regs.b s.regs.c (s.x.word 7#4) 10 0x432aff97#32)) ∧
    exec .ii50 s = .next (s.withC (v s.regs.c s.regs.d s.regs.a s.regs.b (s.x.word 14#4) 15 0xab9423a7#32)) ∧
    exec .ii51 s = .next (s.withB (v s.regs.b s.regs.c s.regs.d s.regs.a (s.x.word 5#4) 21 0xfc93a039#32)) ∧
    exec .ii52 s = .next (s.withA (v s.regs.a s.regs.b s.regs.c s.regs.d (s.x.word 12#4) 6 0x655b59c3#32)) ∧
    exec .ii53 s = .next (s.withD (v s.regs.d s.regs.a s.regs.b s.regs.c (s.x.word 3#4) 10 0x8f0ccc92#32)) ∧
    exec .ii54 s = .next (s.withC (v s.regs.c s.regs.d s.regs.a s.regs.b (s.x.word 10#4) 15 0xffeff47d#32)) ∧
    exec .ii55 s = .next (s.withB (v s.regs.b s.regs.c s.regs.d s.regs.a (s.x.word 1#4) 21 0x85845dd1#32)) ∧
    exec .ii56 s = .next (s.withA (v s.regs.a s.regs.b s.regs.c s.regs.d (s.x.word 8#4) 6 0x6fa87e4f#32)) ∧
    exec .ii57 s = .next (s.withD (v s.regs.d s.regs.a s.regs.b s.regs.c (s.x.word 15#4) 10 0xfe2ce6e0#32)) ∧
    exec .ii58 s = .next (s.withC (v s.regs.c s.regs.d s.regs.a s.regs.b (s.x.word 6#4) 15 0xa3014314#32)) ∧
    exec .ii59 s = .next (s.withB (v s.regs.b s.regs.c s.regs.d s.regs.a (s.x.word 13#4) 21 0x4e0811a1#32)) ∧
    exec .ii60 s = .next (s.withA (v s.regs.a s.regs.b s.regs.c s.regs.d (s.x.word 4#4) 6 0xf7537e82#32)) ∧
    exec .ii61 s = .next (s.withD (v s.regs.d s.regs.a s.regs.b s.regs.c (s.x.word 11#4) 10 0xbd3af235#32)) ∧
    exec .ii62 s = .next (s.withC (v s.regs.c s.regs.d s.regs.a s.regs.b (s.x.word 2#4) 15 0x2ad7d2bb#32)) ∧
    exec .ii63 s = .next (s.withB (v s.regs.b s.regs.c s.regs.d s.regs.a (s.x.word 9#4) 21 0xeb86d391#32))) ∧
    (∀ b c, f b c 0#32 = ~~~c) ∧ (∀ c d, f 0xFFFFFFFF#32 c d = ~~~c) ∧ (∀ c, f 0#32 c 0xFFFFFFFF#32 = c) ∧
    (∀ d : Word, ~~~d = d ^^^ 0xFFFFFFFF#32) ∧
    f 0xca7d2dbd#32 0x68d84ea2#32 0x22a31f54#32 = 0xb7a5a31d#32 ∧
    0x3f55edfd#32 + 0xb7a5a31d#32 + 0x80#32 + 0xf4292244#32 = 0xeb24b3de#32 ∧
    v 0x3f55edfd#32 0xca7d2dbd#32 0x68d84ea2#32 0x22a31f54#32 0x80#32 6 0xf4292244#32 = 0x93aa2577#32

/-- Identities of the round functions that the spec infers (43_compression.md section 3, its sentences marked
"[derived]" in R93 and R94): in F1 the OR may be a sum or an exclusive OR, and F2 is F1 with its arguments moved. -/
def Obligations.RoundFunctionIdentities : Prop :=
  (∀ b c d : Word, f1 b c d = (b &&& c) + (~~~b &&& d)) ∧ (∀ b c d : Word, f1 b c d = (b &&& c) ^^^ (~~~b &&& d)) ∧
  (∀ b c d : Word, f2 b c d = f1 d b c)

/-- The frame of every step micro-operation (43_compression.md sections 2 and 3, the written column of the step table):
registers other than the one written, the block buffer and all other state keep their values. -/
def Obligations.StepFrame : Prop :=
  ∀ (s t : State) (i : BitVec 6), exec (decodeStep i) s = .next t →
    t.x = s.x ∧ t.nb = s.nb ∧ t.phase = s.phase ∧ t.lovf = s.lovf ∧ t.ecode = s.ecode ∧ t.engine = s.engine ∧
    t.port = s.port ∧ t.resp = s.resp ∧ t.draws = s.draws ∧
    (i.toNat % 4 ≠ 0 → t.regs.a = s.regs.a) ∧ (i.toNat % 4 ≠ 1 → t.regs.d = s.regs.d) ∧
    (i.toNat % 4 ≠ 2 → t.regs.c = s.regs.c) ∧ (i.toNat % 4 ≠ 3 → t.regs.b = s.regs.b)

/-- 43_compression.md section 2, register cycling: the role table, that role b is always the register written by the
step before, and the equivalent rotating form: after any multiple of four steps the rotating tuple is (A, B, C, D). -/
def Obligations.RegisterCyclingAndRotatingForm : Prop :=
  roles 0#2 = ⟨.A, .B, .C, .D⟩ ∧ roles 1#2 = ⟨.D, .A, .B, .C⟩ ∧ roles 2#2 = ⟨.C, .D, .A, .B⟩ ∧
  roles 3#2 = ⟨.B, .C, .D, .A⟩ ∧
  (∀ i : BitVec 6, (roles (stepMod4 (i + 1#6))).b = (roles (stepMod4 i)).a) ∧
  (∀ (g : Regs) (x : Block) (n : Nat), n ≤ 16 → rotatingSteps (4 * n) g x = runSteps (4 * n) g x)

/-- R98: `rotl32` moves bit p to bit `(p + s) mod 32`, for every count 1 to 31 and so for the sixteen counts of S, which
are all the counts used; its corner case. -/
def Obligations.RotationMovesEveryBit : Prop :=
  (∀ (t : Word) (s p : Nat), 1 ≤ s → s ≤ 31 → p < 32 →
    (rotl32 t s).getLsbD ((p + s) % 32) = t.getLsbD p) ∧
  (∀ n, (∃ i : BitVec 6, tableS i = n) ↔ n ∈ [4, 5, 6, 7, 9, 10, 11, 12, 14, 15, 16, 17, 20, 21, 22, 23]) ∧
  rotl32 0x80000000#32 7 = 0x00000040#32

/-- R100 and R101: the rotation amounts by round and `i mod 4`, the message-word schedule by its formulas, and that
every round uses every word exactly once. -/
def Obligations.RotationAndWordSchedules : Prop :=
  (∀ i : BitVec 6, tableS i = (match i.toNat / 16, i.toNat % 4 with
    | 0, 0 => 7 | 0, 1 => 12 | 0, 2 => 17 | 0, _ => 22
    | 1, 0 => 5 | 1, 1 => 9 | 1, 2 => 14 | 1, _ => 20
    | 2, 0 => 4 | 2, 1 => 11 | 2, 2 => 16 | 2, _ => 23
    | _, 0 => 6 | _, 1 => 10 | _, 2 => 15 | _, _ => 21)) ∧
  (∀ i : BitVec 6, (tableK i).toNat = (match i.toNat / 16 with
    | 0 => i.toNat % 16
    | 1 => (5 * i.toNat + 1) % 16
    | 2 => (3 * i.toNat + 5) % 16
    | _ => (7 * i.toNat) % 16)) ∧
  (∀ (round : BitVec 2) (k : BitVec 4), ∃ pos : BitVec 4, tableK (round ++ pos) = k ∧
    ∀ q : BitVec 4, tableK (round ++ q) = k → q = pos)

/-- The sequencer refines the atomic block operation (43_compression.md sections 1 and 6): from a block that starts at
step 0, n steps of the machine (n at most 63) leave the registers after the first n steps, and 64 leave `Compress` of
the registers and X, with the block ended and nothing else changed. One machine step per micro-operation is the model's
choice (log entry 2, DESIGN CHOICE): the spec leaves that granularity open. -/
def Obligations.SequencerRefinesCompress : Prop :=
  ∀ s : State, s.engine = some ⟨0#6, s.regs⟩ →
    (∀ n, n ≤ 63 → (Sys2Proof.core.run n s : Host.Outcome State Fault Refusal) =
      .next { s with engine := some ⟨BitVec.ofNat 6 n, s.regs⟩, regs := runSteps n s.regs s.x }) ∧
    (Sys2Proof.core.run 64 s : Host.Outcome State Fault Refusal) =
      .next { s with engine := none, regs := compress s.regs s.x }

/-- 20_memory.md section 4, atomicity: a command is one transition. Whatever the port event, a step that starts with no
block in progress ends with none. -/
def Obligations.NoCommandLeavesABlockInProgress : Prop :=
  ∀ s t : State, s.engine = none → step s = .next t → t.engine = none

/-- The engine on the block of the empty message: the state after step 63, chaining, and the digest (43_compression.md
section 6, 95_test_vectors.md sections 1.2 and 2.4); with it the published digests of "" and "abc". -/
def Obligations.KnownAnswers : Prop :=
  let x := Block.zero.setWord 0#4 0x80#32
  runSteps 64 iv x = ⟨0x7246fad3#32, 0x14e45506#32, 0xff4ea3eb#32, 0x6e10a476#32⟩ ∧
  compress iv x = ⟨0xd98c1dd4#32, 0x04b2008f#32, 0x980980e9#32, 0x7e42f8ec#32⟩ ∧
  digest [] = utf8Bytes "D41D8CD98F00B204E9800998ECF8427E" ∧
  digest (utf8Bytes "abc") = utf8Bytes "900150983CD24FB0D6963F7D28E17F72"

/-! ### The block buffer and the pure functions -/

/-- R31 and R33: a byte address is a lane of a little-endian word; a byte or word write is read back and leaves every
other byte or word alone; a word is its four bytes, the lowest address in the lowest bits. The sentence
R33 marks "[derived]" is stated apart, in OrStoreAgreesWithMemWrite. -/
def Obligations.BlockBufferBytesAndWords : Prop :=
  (∀ (x : Block) (a : BitVec 6),
    memRead1 x a = (x.word (BitVec.ofNat 4 (a.toNat / 4))).extractLsb' (8 * (a.toNat % 4)) 8) ∧
  (∀ (x : Block) (a : BitVec 6) (v : Byte), memRead1 (memWrite1 x a v) a = v) ∧
  (∀ (x : Block) (a b : BitVec 6) (v : Byte), b ≠ a → memRead1 (memWrite1 x a v) b = memRead1 x b) ∧
  (∀ (x : Block) (k : BitVec 4) (v : Word), memRead4 (memWrite4 x k v) k = v) ∧
  (∀ (x : Block) (k j : BitVec 4) (v : Word), j ≠ k → memRead4 (memWrite4 x k v) j = memRead4 x j) ∧
  (∀ (x : Block) (k : BitVec 4), memRead4 x k =
    memRead1 x (k ++ 3#2) ++ memRead1 x (k ++ 2#2) ++ memRead1 x (k ++ 1#2) ++ memRead1 x (k ++ 0#2))

/-- On a zero byte the OR-store of PUSHB and FINAL is MemWrite (20_memory.md section 2, the sentence of R33 marked
"[derived]"). -/
def Obligations.OrStoreAgreesWithMemWrite : Prop :=
  ∀ (x : Block) (a : BitVec 6) (v : Byte), memRead1 x a = 0#8 → orByte x a v = memWrite1 x a v

/-- R70: `Pack` gives ceil(N / 4) words, and byte p of the message is the lane at bit `8 * (p mod 4)` of word `p / 4`;
lanes beyond the end are 0. -/
def Obligations.PackIsLittleEndian : Prop :=
  ∀ m : List Byte, (pack m).length = (m.length + 3) / 4 ∧
    ∀ p, p < 4 * (pack m).length →
      ((pack m).getD (p / 4) 0#32).extractLsb' (8 * (p % 4)) 8 = (if p < m.length then m.getD p 0#8 else 0#8)

/-- The padded message (42_padder.md sections 1: terminator, length field, padded length, and how many blocks FINAL
owes): with N bytes the padded length is `16 * (((N + 8) >> 6) + 1)` words, at least ceil(N / 4) + 2; the length word is
`8 * N mod 2^32` at its index and the word after it 0; every other word is the packed word with 0x80 OR-ed in after the
last byte; and after `N / 64` whole blocks one or two are left, two exactly when `N mod 64` is 56 or more. -/
def Obligations.PaddedMessage : Prop :=
  ∀ m : List Byte,
    let N := m.length
    let P := pad (pack m) N
    let idx := (((8 * N + 64) >>> 9) <<< 4) + 14
    P.length = 16 * (((N + 8) >>> 6) + 1) ∧ P.length = idx + 2 ∧ (N + 3) / 4 + 2 ≤ P.length ∧
    P.getD idx 0#32 = BitVec.ofNat 32 (8 * N) ∧ P.getD (idx + 1) 0#32 = 0#32 ∧
    (∀ i, i ≠ idx → P.getD i 0#32 =
      (pack m).getD i 0#32 ||| (if i = N / 4 then 0x80#32 <<< (8 * (N % 4)) else 0#32)) ∧
    P.length / 16 - N / 64 = (if N % 64 ≤ 55 then 1 else 2)

/-- 44_unpacker.md section 1, the round trip: `Unpack` is the inverse of `Pack` on 16 bytes, both ways. -/
def Obligations.UnpackInvertsPack : Prop :=
  (∀ m : List Byte, m.length = 16 →
    unpack ⟨(pack m).getD 0 0#32, (pack m).getD 1 0#32, (pack m).getD 2 0#32, (pack m).getD 3 0#32⟩ = m) ∧
  (∀ g : Regs, pack (unpack g) = [g.a, g.b, g.c, g.d])

/-- `Hex` gives two digits a byte, high nibble first, in sequence order (45_hex.md section 1); and the character
function of RDH (45_hex.md section 2, `hexChar`) gives at index k character k of the rendering of the unpacked
registers, which is an inference the spec marks "[derived]" in the whole-message law (40_control.md section 5). -/
def Obligations.HexRendersHighNibbleFirst : Prop :=
  (∀ (c : HexCase) (m : List Byte), (hexRender c m).length = 2 * m.length ∧
    ∀ p, p < m.length →
      (hexRender c m).getD (2 * p) 0#8 = digitCode c ((m.getD p 0#8).extractLsb' 4 4) ∧
      (hexRender c m).getD (2 * p + 1) 0#8 = digitCode c ((m.getD p 0#8).extractLsb' 0 4)) ∧
  (∀ (g : Regs) (k : BitVec 5), hexChar g k = (hexRender Config.hexCase (unpack g)).getD k.toNat 0#8)

/-- A digest has exactly 32 characters, each the code of a digit 0 to 9 or of a letter A to F, and every response of
RDHEX lies in those ranges (45_hex.md section 2, the output properties). -/
def Obligations.DigestIsThirtyTwoUpperCaseHexDigits : Prop :=
  (∀ m : List Byte, (digest m).length = 32 ∧
    ∀ v ∈ digest m, (0x30#8 ≤ v ∧ v ≤ 0x39#8) ∨ (0x41#8 ≤ v ∧ v ≤ 0x46#8)) ∧
  (∀ (s t : State) (k : BitVec 5), s.phase = .done → exec (.rdh k) s = .next t →
    ∃ v : Word, t.resp = s.resp ++ [v] ∧ ((0x30#32 ≤ v ∧ v ≤ 0x39#32) ∨ (0x41#32 ≤ v ∧ v ≤ 0x46#32)))

/-! ### Faults and reset (60_exceptions.md, 70_reset_and_hazards.md) -/

/-- R121: which words raise which cause, from a state outside FAULT that meets the invariant; INIT and RDS raise
none. -/
def Obligations.FaultCauses : Prop :=
  (Cause.none.code = 0#2 ∧ Cause.illegalCmd.code = 1#2 ∧ Cause.badPhase.code = 2#2 ∧ ∀ c : Cause, c.code ≠ 3#2) ∧
  ∀ (s t : State) (w : BitVec 16) (rest : List PortEvent), Inv s → s.engine = none → s.phase ≠ .fault →
    s.port = .cmd w :: rest → step s = .next t →
    (t.ecode = .illegalCmd ↔ ∃ r, decodeCommand w = .illegal r) ∧
    (t.ecode = .badPhase ↔ ∃ i, decodeCommand w = .instr i ∧
      ((((∃ b, i = .pushb b) ∨ i = .final) ∧ (s.phase = .idle ∨ s.phase = .done)) ∨
       ((∃ r, i = .rdw r) ∧ s.phase = .idle) ∨
       (((∃ j, i = .rdb j) ∨ (∃ k, i = .rdh k)) ∧ (s.phase = .idle ∨ s.phase = .absorb))))

/-- R124: fault entry is precise: a command word that takes the machine into FAULT changes ECODE and PHASE, gives its
one zero response if it is read-class, and changes nothing else. -/
def Obligations.FaultEntryIsPrecise : Prop :=
  ∀ (s t : State) (w : BitVec 16) (rest : List PortEvent), s.engine = none → s.phase ≠ .fault →
    s.port = .cmd w :: rest → step s = .next t → t.phase = .fault →
    t = { s with
      port := rest
      resp := s.resp ++ (if readClass w then [0#32] else [])
      phase := .fault
      ecode := match decodeCommand w with
        | .illegal _ => .illegalCmd
        | .instr _ => .badPhase }

/-- R125: in FAULT every command but the legal RDS word is ignored, read-class words respond 0, and RDS responds STATUS,
whose PHASE field is 3 and whose ECODE field is the recorded cause. -/
def Obligations.FaultLocksTheCore : Prop :=
  ∀ (s : State) (w : BitVec 16) (rest : List PortEvent), s.phase = .fault → s.engine = none →
    s.port = .cmd w :: rest →
    (w ≠ 0x7000#16 → readClass w = true → step s = .next { s with port := rest, resp := s.resp ++ [0#32] }) ∧
    (w ≠ 0x7000#16 → readClass w = false → step s = .next { s with port := rest }) ∧
    (w = 0x7000#16 → ∃ v, step s = .next { s with port := rest, resp := s.resp ++ [v] } ∧
      v.extractLsb' 0 2 = 3#2 ∧ v.extractLsb' 3 2 = s.ecode.code)

/-- R126: no command leaves FAULT or changes the recorded cause; the reset event does, to IDLE with ECODE 0. -/
def Obligations.OnlyResetLeavesFault : Prop :=
  (∀ s t : State, s.phase = .fault → s.engine = none → s.port.head? ≠ some .reset → step s = .next t →
    t.phase = .fault ∧ t.ecode = s.ecode) ∧
  (∀ (s : State) (rest : List PortEvent), s.phase = .fault → s.engine = none → s.port = .reset :: rest →
    ∃ t, step s = .next t ∧ t.phase = .idle ∧ t.ecode = .none)

/-- No data-dependent fault exists (60_exceptions.md section 1). In ABSORB no byte, length or register value makes PUSHB
or FINAL fault; and whether a word faults, and with which cause, is the same from any two states that agree on PHASE and
ECODE, whatever A to D, X, NB and LOVF hold. That every step from every state answers a next state (the first clause) is
the model's choice (log entry 11, DESIGN CHOICE): it takes the protocol faults as next states. -/
def Obligations.NothingStopsTheCore : Prop :=
  (∀ s : State, ∃ t, step s = .next t) ∧
  (∀ (s : State) (b : Byte), s.phase = .absorb →
    ∃ t, exec (.pushb b) s = .next t ∧ t.phase = .absorb ∧ t.ecode = s.ecode) ∧
  (∀ s : State, s.phase = .absorb → ∃ t, exec .final s = .next t ∧ t.phase = .done ∧ t.ecode = s.ecode) ∧
  (∀ (s u s' u' : State) (w : BitVec 16) (rest qest : List PortEvent), s.engine = none → u.engine = none →
    s.phase = u.phase → s.ecode = u.ecode → s.port = .cmd w :: rest → u.port = .cmd w :: qest →
    step s = .next s' → step u = .next u' → s'.phase = u'.phase ∧ s'.ecode = u'.ecode)

/-- The reset event (70_reset_and_hazards.md section 1): from every state between commands it leaves IDLE, LOVF 0 and
ECODE 0 and discards the responses not yet collected. It says nothing of A, B, C, D, X and NB, which are unspecified
(log entry 1); that the rest of the port's events stay is the model's choice (log entry 3). -/
def Obligations.ResetEventSetsTheControlState : Prop :=
  ∀ (s : State) (rest : List PortEvent), s.engine = none → s.port = .reset :: rest →
    ∃ t, step s = .next t ∧ t.phase = .idle ∧ t.lovf = false ∧ t.ecode = .none ∧ t.resp = [] ∧ t.engine = none ∧
      t.port = rest

/-- The state after power-on reset (10_state.md section 7, its PHASE, LOVF and ECODE rows); that no port event or
response waits is the model's choice (log entries 3 and 4). -/
def Obligations.ResetStateIsIdle : Prop :=
  State.reset.phase = .idle ∧ State.reset.lovf = false ∧ State.reset.ecode = .none ∧ State.reset.engine = none ∧
  State.reset.port = [] ∧ State.reset.resp = [] ∧ Sys2Proof.core.reset = State.reset

/-- A core with no event at its ports waits with all state retained (60_exceptions.md section 7), and taking a response
takes the oldest one (20_memory.md section 6); how the RESP port holds responses is the model's choice (log entry 4). -/
def Obligations.PortsWithoutACommand : Prop :=
  (∀ s : State, s.engine = none → s.port = [] → step s = .next s) ∧
  (∀ (s : State) (rest : List PortEvent) (v : Word) (vs : List Word), s.engine = none → s.port = .collect :: rest →
    s.resp = v :: vs → step s = .next { s with port := rest, resp := vs }) ∧
  (∀ (s : State) (rest : List PortEvent), s.engine = none → s.port = .collect :: rest →
    s.resp = [] → step s = .next { s with port := rest })

/-! ### Whole-machine rules -/

/-- The invariant holds after reset. -/
def Obligations.InvariantHoldsAtReset : Prop := Inv State.reset

/-- Every step keeps the invariant (10_state.md sections 3 and 5, 20_memory.md section 2): ECODE is non-zero exactly in
FAULT, every buffer byte from NB[5:0] on is zero while absorbing, and the buffer is zero in DONE. -/
def Obligations.EveryStepKeepsTheInvariant : Prop :=
  ∀ s t : State, Inv s → step s = .next t → Inv t

/-- Which commands write what (10_state.md sections 1, 2, 3 and 5): between commands, A to D change only by INIT, PUSHB
and FINAL, X only by those, NB only by INIT and PUSHB; LOVF is cleared only by INIT and set only by the PUSHB that makes
NB wrap. -/
def Obligations.WritersOfTheDatapath : Prop :=
  ∀ (s t : State) (w : BitVec 16) (rest : List PortEvent), s.engine = none → s.port = .cmd w :: rest →
    step s = .next t →
    (t.regs ≠ s.regs → w = 0x1000#16 ∨ (∃ b, w = pushWord b ∧ bufAddress s.nb = 63#6) ∨ w = 0x3000#16) ∧
    (t.x ≠ s.x → w = 0x1000#16 ∨ (∃ b, w = pushWord b) ∨ w = 0x3000#16) ∧
    (t.nb ≠ s.nb → w = 0x1000#16 ∨ ∃ b, w = pushWord b) ∧
    (s.lovf = true → t.lovf = false → w = 0x1000#16) ∧
    (s.lovf = false → t.lovf = true → (∃ b, w = pushWord b) ∧ s.nb = 0x1FFFFFFF#29 ∧ t.nb = 0#29) ∧
    t.draws = s.draws ∧ t.port = rest

/-- INIT discards the old context without trace (40_control.md section 2): two states that differ only in A to D, X, NB,
LOVF and in which phase other than FAULT they are in become one state. -/
def Obligations.InitErasesTheOldContext : Prop :=
  ∀ s u : State, s.phase ≠ .fault → u.phase ≠ .fault → s.ecode = u.ecode → s.engine = u.engine → s.port = u.port →
    s.resp = u.resp → s.draws = u.draws → exec .init s = exec .init u

/-- FAULT hides the datapath (60_exceptions.md section 3): from two faulted states that agree on the control state and
the ports, one command word gives the same responses, whatever A to D, X and NB hold. -/
def Obligations.FaultHidesTheDatapath : Prop :=
  ∀ (s u s' u' : State) (w : BitVec 16) (rest : List PortEvent), s.phase = .fault → u.phase = .fault →
    s.engine = none → u.engine = none → s.ecode = u.ecode → s.lovf = u.lovf → s.resp = u.resp →
    s.port = .cmd w :: rest → u.port = .cmd w :: rest → step s = .next s' → step u = .next u' →
    s'.resp = u'.resp ∧ s'.phase = .fault ∧ u'.phase = .fault ∧ s'.ecode = u'.ecode ∧ s'.lovf = u'.lovf

/-! ### The whole message -/

/-- 41_packer.md section 2, the buffer invariant (an inference the spec marks "[derived]"): after INIT and n accepted
PUSHB commands, A to D are IV folded through the whole blocks of `Pack(m)`, X is the rest of `Pack(m)` extended with
zero words, NB is n mod 2^29 and LOVF says whether n reached 2^29. -/
def Obligations.BufferInvariantOfAMessage : Prop :=
  ∀ (s : State) (m : List Byte) (rest : List PortEvent), s.engine = none → s.phase ≠ .fault →
    s.port = cmds (0x1000#16 :: m.map pushWord) ++ rest →
    (Sys2Proof.core.run (m.length + 1) s : Host.Outcome State Fault Refusal) = .next { s with
      x := blockAt (pack m) (m.length / 64)
      nb := BitVec.ofNat 29 m.length
      phase := .absorb
      lovf := decide (2 ^ 29 ≤ m.length)
      port := rest
      regs := foldBlocks (pack m) (m.length / 64) }

/-- 40_control.md section 5, the whole-message law (an inference the spec marks "[derived]"): from any state outside
FAULT that meets the invariant, as every reachable one does, INIT, one PUSHB a byte and FINAL end in DONE with ECODE 0,
LOVF = (N >= 2^29), and A to D the fold of `Compress` over the blocks of `Pad(Pack(m), 8 * N)` from IV, for a message of
any length; then RDW r, RDB j and RDH k return word r, byte j of `Unpack` and character k of `Hex` of it. -/
def Obligations.WholeMessageLaw : Prop :=
  ∀ (s : State) (m : List Byte) (rest : List PortEvent), Inv s → s.engine = none → s.phase ≠ .fault →
    s.port = cmds (messageWords m) ++ rest →
    ∃ t, (Sys2Proof.core.run (m.length + 2) s : Host.Outcome State Fault Refusal) = .next t ∧
      t = { afterMessage m s with port := rest } ∧
      t.phase = .done ∧ t.ecode = .none ∧ t.lovf = decide (2 ^ 29 ≤ m.length) ∧
      t.regs = md5State (pad (pack m) m.length) ∧
      (∀ r, exec (.rdw r) t = .next { t with resp := t.resp ++ [regNumbered t.regs r.toNat] }) ∧
      (∀ j, exec (.rdb j) t = .next { t with resp := t.resp ++ [((unpack t.regs).getD j.toNat 0#8).setWidth 32] }) ∧
      (∀ k, exec (.rdh k) t = .next { t with resp := t.resp ++ [((digest m).getD k.toNat 0#8).setWidth 32] })

/-- The pseudo-instruction DIGEST (30_encoding.md section 8) computes D00's `digest(text)`: the words it assembles to,
run from any state outside FAULT that meets the invariant, add to the responses the 32 character codes of the digest of
the text's UTF-8 bytes, in order, and no others. -/
def Obligations.DigestPseudoInstruction : Prop :=
  ∀ (text : String) (s : State) (rest : List PortEvent), Inv s → s.engine = none → s.phase ≠ .fault →
    ∃ ws, assemble (.digest text) = some ws ∧
      (s.port = cmds ws ++ rest →
        (Sys2Proof.core.run ws.length s : Host.Outcome State Fault Refusal) = .next { afterMessage (utf8Bytes text) s with
          port := rest
          resp := s.resp ++ (digest (utf8Bytes text)).map fun v => v.setWidth 32 })
end

