-- ==== Sys2Proof/Laws/State.lean ====
section
/-! SUPPORT. One lemma per field per named update of the state, so that no later proof unfolds an update. -/

namespace Sys2Proof.Machine

/-! `respond` -/

@[simp] theorem respond_regs (v : Word) (s : State) : (respond v s).regs = s.regs := rfl
@[simp] theorem respond_x (v : Word) (s : State) : (respond v s).x = s.x := rfl
@[simp] theorem respond_nb (v : Word) (s : State) : (respond v s).nb = s.nb := rfl
@[simp] theorem respond_phase (v : Word) (s : State) : (respond v s).phase = s.phase := rfl
@[simp] theorem respond_lovf (v : Word) (s : State) : (respond v s).lovf = s.lovf := rfl
@[simp] theorem respond_ecode (v : Word) (s : State) : (respond v s).ecode = s.ecode := rfl
@[simp] theorem respond_engine (v : Word) (s : State) : (respond v s).engine = s.engine := rfl
@[simp] theorem respond_port (v : Word) (s : State) : (respond v s).port = s.port := rfl
@[simp] theorem respond_resp (v : Word) (s : State) : (respond v s).resp = s.resp ++ [v] := rfl
@[simp] theorem respond_draws (v : Word) (s : State) : (respond v s).draws = s.draws := rfl

/-! `respondZeroIf` -/

@[simp] theorem respondZeroIf_regs (rc : Bool) (s : State) : (respondZeroIf rc s).regs = s.regs := by cases rc <;> rfl
@[simp] theorem respondZeroIf_x (rc : Bool) (s : State) : (respondZeroIf rc s).x = s.x := by cases rc <;> rfl
@[simp] theorem respondZeroIf_nb (rc : Bool) (s : State) : (respondZeroIf rc s).nb = s.nb := by cases rc <;> rfl
@[simp] theorem respondZeroIf_phase (rc : Bool) (s : State) : (respondZeroIf rc s).phase = s.phase := by cases rc <;> rfl
@[simp] theorem respondZeroIf_lovf (rc : Bool) (s : State) : (respondZeroIf rc s).lovf = s.lovf := by cases rc <;> rfl
@[simp] theorem respondZeroIf_ecode (rc : Bool) (s : State) : (respondZeroIf rc s).ecode = s.ecode := by cases rc <;> rfl
@[simp] theorem respondZeroIf_engine (rc : Bool) (s : State) : (respondZeroIf rc s).engine = s.engine := by cases rc <;> rfl
@[simp] theorem respondZeroIf_port (rc : Bool) (s : State) : (respondZeroIf rc s).port = s.port := by cases rc <;> rfl
@[simp] theorem respondZeroIf_resp (rc : Bool) (s : State) : (respondZeroIf rc s).resp = s.resp ++ if rc then [0#32] else [] := by
  cases rc <;> simp [respondZeroIf, respond]
@[simp] theorem respondZeroIf_draws (rc : Bool) (s : State) : (respondZeroIf rc s).draws = s.draws := by cases rc <;> rfl

/-! `collectResponse` -/

@[simp] theorem collectResponse_regs (s : State) : (collectResponse s).regs = s.regs := rfl
@[simp] theorem collectResponse_x (s : State) : (collectResponse s).x = s.x := rfl
@[simp] theorem collectResponse_nb (s : State) : (collectResponse s).nb = s.nb := rfl
@[simp] theorem collectResponse_phase (s : State) : (collectResponse s).phase = s.phase := rfl
@[simp] theorem collectResponse_lovf (s : State) : (collectResponse s).lovf = s.lovf := rfl
@[simp] theorem collectResponse_ecode (s : State) : (collectResponse s).ecode = s.ecode := rfl
@[simp] theorem collectResponse_engine (s : State) : (collectResponse s).engine = s.engine := rfl
@[simp] theorem collectResponse_port (s : State) : (collectResponse s).port = s.port := rfl
@[simp] theorem collectResponse_resp (s : State) : (collectResponse s).resp = s.resp.tail := rfl
@[simp] theorem collectResponse_draws (s : State) : (collectResponse s).draws = s.draws := rfl

/-! `raiseFault` -/

@[simp] theorem raiseFault_regs (code : Cause) (s : State) : (raiseFault code s).regs = s.regs := rfl
@[simp] theorem raiseFault_x (code : Cause) (s : State) : (raiseFault code s).x = s.x := rfl
@[simp] theorem raiseFault_nb (code : Cause) (s : State) : (raiseFault code s).nb = s.nb := rfl
@[simp] theorem raiseFault_phase (code : Cause) (s : State) : (raiseFault code s).phase = .fault := rfl
@[simp] theorem raiseFault_lovf (code : Cause) (s : State) : (raiseFault code s).lovf = s.lovf := rfl
@[simp] theorem raiseFault_ecode (code : Cause) (s : State) : (raiseFault code s).ecode = code := rfl
@[simp] theorem raiseFault_engine (code : Cause) (s : State) : (raiseFault code s).engine = s.engine := rfl
@[simp] theorem raiseFault_port (code : Cause) (s : State) : (raiseFault code s).port = s.port := rfl
@[simp] theorem raiseFault_resp (code : Cause) (s : State) : (raiseFault code s).resp = s.resp := rfl
@[simp] theorem raiseFault_draws (code : Cause) (s : State) : (raiseFault code s).draws = s.draws := rfl

/-! `resetEvent` -/

@[simp] theorem resetEvent_phase (s : State) : (resetEvent s).phase = .idle := rfl
@[simp] theorem resetEvent_lovf (s : State) : (resetEvent s).lovf = false := rfl
@[simp] theorem resetEvent_ecode (s : State) : (resetEvent s).ecode = .none := rfl
@[simp] theorem resetEvent_engine (s : State) : (resetEvent s).engine = none := rfl
@[simp] theorem resetEvent_port (s : State) : (resetEvent s).port = s.port := rfl
@[simp] theorem resetEvent_resp (s : State) : (resetEvent s).resp = [] := rfl
@[simp] theorem resetEvent_draws (s : State) : (resetEvent s).draws = s.draws + 1 := rfl

/-! `blockOp` -/

@[simp] theorem blockOp_regs (s : State) : (blockOp s).regs = compress s.regs s.x := rfl
@[simp] theorem blockOp_x (s : State) : (blockOp s).x = Block.zero := rfl
@[simp] theorem blockOp_nb (s : State) : (blockOp s).nb = s.nb := rfl
@[simp] theorem blockOp_phase (s : State) : (blockOp s).phase = s.phase := rfl
@[simp] theorem blockOp_lovf (s : State) : (blockOp s).lovf = s.lovf := rfl
@[simp] theorem blockOp_ecode (s : State) : (blockOp s).ecode = s.ecode := rfl
@[simp] theorem blockOp_engine (s : State) : (blockOp s).engine = s.engine := rfl
@[simp] theorem blockOp_port (s : State) : (blockOp s).port = s.port := rfl
@[simp] theorem blockOp_resp (s : State) : (blockOp s).resp = s.resp := rfl
@[simp] theorem blockOp_draws (s : State) : (blockOp s).draws = s.draws := rfl

/-! `stepOp` -/

@[simp] theorem stepOp_regs (i : BitVec 6) (s : State) : (stepOp i s).regs = engineStep i s.regs s.x := rfl
@[simp] theorem stepOp_x (i : BitVec 6) (s : State) : (stepOp i s).x = s.x := rfl
@[simp] theorem stepOp_nb (i : BitVec 6) (s : State) : (stepOp i s).nb = s.nb := rfl
@[simp] theorem stepOp_phase (i : BitVec 6) (s : State) : (stepOp i s).phase = s.phase := rfl
@[simp] theorem stepOp_lovf (i : BitVec 6) (s : State) : (stepOp i s).lovf = s.lovf := rfl
@[simp] theorem stepOp_ecode (i : BitVec 6) (s : State) : (stepOp i s).ecode = s.ecode := rfl
@[simp] theorem stepOp_engine (i : BitVec 6) (s : State) : (stepOp i s).engine = s.engine := rfl
@[simp] theorem stepOp_port (i : BitVec 6) (s : State) : (stepOp i s).port = s.port := rfl
@[simp] theorem stepOp_resp (i : BitVec 6) (s : State) : (stepOp i s).resp = s.resp := rfl
@[simp] theorem stepOp_draws (i : BitVec 6) (s : State) : (stepOp i s).draws = s.draws := rfl

/-! `initBody` -/

@[simp] theorem initBody_regs (s : State) : (initBody s).regs = iv := rfl
@[simp] theorem initBody_x (s : State) : (initBody s).x = Block.zero := rfl
@[simp] theorem initBody_nb (s : State) : (initBody s).nb = 0#29 := rfl
@[simp] theorem initBody_phase (s : State) : (initBody s).phase = .absorb := rfl
@[simp] theorem initBody_lovf (s : State) : (initBody s).lovf = false := rfl
@[simp] theorem initBody_ecode (s : State) : (initBody s).ecode = s.ecode := rfl
@[simp] theorem initBody_engine (s : State) : (initBody s).engine = s.engine := rfl
@[simp] theorem initBody_port (s : State) : (initBody s).port = s.port := rfl
@[simp] theorem initBody_resp (s : State) : (initBody s).resp = s.resp := rfl
@[simp] theorem initBody_draws (s : State) : (initBody s).draws = s.draws := rfl

/-! `storeByte` -/

@[simp] theorem storeByte_regs (v : Byte) (s : State) : (storeByte v s).regs = s.regs := rfl
@[simp] theorem storeByte_x (v : Byte) (s : State) : (storeByte v s).x = orByte s.x (bufAddress s.nb) v := rfl
@[simp] theorem storeByte_nb (v : Byte) (s : State) : (storeByte v s).nb = s.nb + 1#29 := rfl
@[simp] theorem storeByte_phase (v : Byte) (s : State) : (storeByte v s).phase = s.phase := rfl
@[simp] theorem storeByte_lovf (v : Byte) (s : State) : (storeByte v s).lovf = lovfAfterPush s.nb s.lovf := rfl
@[simp] theorem storeByte_ecode (v : Byte) (s : State) : (storeByte v s).ecode = s.ecode := rfl
@[simp] theorem storeByte_engine (v : Byte) (s : State) : (storeByte v s).engine = s.engine := rfl
@[simp] theorem storeByte_port (v : Byte) (s : State) : (storeByte v s).port = s.port := rfl
@[simp] theorem storeByte_resp (v : Byte) (s : State) : (storeByte v s).resp = s.resp := rfl
@[simp] theorem storeByte_draws (v : Byte) (s : State) : (storeByte v s).draws = s.draws := rfl

/-! `terminate` -/

@[simp] theorem terminate_regs (s : State) : (terminate s).regs = s.regs := rfl
@[simp] theorem terminate_x (s : State) : (terminate s).x = orByte s.x (bufAddress s.nb) 0x80#8 := rfl
@[simp] theorem terminate_nb (s : State) : (terminate s).nb = s.nb := rfl
@[simp] theorem terminate_phase (s : State) : (terminate s).phase = s.phase := rfl
@[simp] theorem terminate_lovf (s : State) : (terminate s).lovf = s.lovf := rfl
@[simp] theorem terminate_ecode (s : State) : (terminate s).ecode = s.ecode := rfl
@[simp] theorem terminate_engine (s : State) : (terminate s).engine = s.engine := rfl
@[simp] theorem terminate_port (s : State) : (terminate s).port = s.port := rfl
@[simp] theorem terminate_resp (s : State) : (terminate s).resp = s.resp := rfl
@[simp] theorem terminate_draws (s : State) : (terminate s).draws = s.draws := rfl

/-! `writeLength` -/

@[simp] theorem writeLength_regs (s : State) : (writeLength s).regs = s.regs := rfl
@[simp] theorem writeLength_x (s : State) : (writeLength s).x = memWrite4 s.x 14#4 (bitLength s.nb) := rfl
@[simp] theorem writeLength_nb (s : State) : (writeLength s).nb = s.nb := rfl
@[simp] theorem writeLength_phase (s : State) : (writeLength s).phase = s.phase := rfl
@[simp] theorem writeLength_lovf (s : State) : (writeLength s).lovf = s.lovf := rfl
@[simp] theorem writeLength_ecode (s : State) : (writeLength s).ecode = s.ecode := rfl
@[simp] theorem writeLength_engine (s : State) : (writeLength s).engine = s.engine := rfl
@[simp] theorem writeLength_port (s : State) : (writeLength s).port = s.port := rfl
@[simp] theorem writeLength_resp (s : State) : (writeLength s).resp = s.resp := rfl
@[simp] theorem writeLength_draws (s : State) : (writeLength s).draws = s.draws := rfl

/-! `makeRoom` -/

@[simp] theorem makeRoom_nb (s : State) : (makeRoom s).nb = s.nb := by unfold makeRoom; split <;> rfl
@[simp] theorem makeRoom_phase (s : State) : (makeRoom s).phase = s.phase := by unfold makeRoom; split <;> rfl
@[simp] theorem makeRoom_lovf (s : State) : (makeRoom s).lovf = s.lovf := by unfold makeRoom; split <;> rfl
@[simp] theorem makeRoom_ecode (s : State) : (makeRoom s).ecode = s.ecode := by unfold makeRoom; split <;> rfl
@[simp] theorem makeRoom_engine (s : State) : (makeRoom s).engine = s.engine := by unfold makeRoom; split <;> rfl
@[simp] theorem makeRoom_port (s : State) : (makeRoom s).port = s.port := by unfold makeRoom; split <;> rfl
@[simp] theorem makeRoom_resp (s : State) : (makeRoom s).resp = s.resp := by unfold makeRoom; split <;> rfl
@[simp] theorem makeRoom_draws (s : State) : (makeRoom s).draws = s.draws := by unfold makeRoom; split <;> rfl

/-! `pushBody` -/

@[simp] theorem pushBody_nb (v : Byte) (s : State) : (pushBody v s).nb = s.nb + 1#29 := by unfold pushBody; split <;> rfl
@[simp] theorem pushBody_phase (v : Byte) (s : State) : (pushBody v s).phase = s.phase := by unfold pushBody; split <;> rfl
@[simp] theorem pushBody_lovf (v : Byte) (s : State) : (pushBody v s).lovf = lovfAfterPush s.nb s.lovf := by unfold pushBody; split <;> rfl
@[simp] theorem pushBody_ecode (v : Byte) (s : State) : (pushBody v s).ecode = s.ecode := by unfold pushBody; split <;> rfl
@[simp] theorem pushBody_engine (v : Byte) (s : State) : (pushBody v s).engine = s.engine := by unfold pushBody; split <;> rfl
@[simp] theorem pushBody_port (v : Byte) (s : State) : (pushBody v s).port = s.port := by unfold pushBody; split <;> rfl
@[simp] theorem pushBody_resp (v : Byte) (s : State) : (pushBody v s).resp = s.resp := by unfold pushBody; split <;> rfl
@[simp] theorem pushBody_draws (v : Byte) (s : State) : (pushBody v s).draws = s.draws := by unfold pushBody; split <;> rfl

/-! `finalBody` -/

@[simp] theorem finalBody_x (s : State) : (finalBody s).x = Block.zero := rfl
@[simp] theorem finalBody_nb (s : State) : (finalBody s).nb = s.nb := by simp [finalBody]
@[simp] theorem finalBody_phase (s : State) : (finalBody s).phase = .done := rfl
@[simp] theorem finalBody_lovf (s : State) : (finalBody s).lovf = s.lovf := by simp [finalBody]
@[simp] theorem finalBody_ecode (s : State) : (finalBody s).ecode = s.ecode := by simp [finalBody]
@[simp] theorem finalBody_engine (s : State) : (finalBody s).engine = s.engine := by simp [finalBody]
@[simp] theorem finalBody_port (s : State) : (finalBody s).port = s.port := by simp [finalBody]
@[simp] theorem finalBody_resp (s : State) : (finalBody s).resp = s.resp := by simp [finalBody]
@[simp] theorem finalBody_draws (s : State) : (finalBody s).draws = s.draws := by simp [finalBody]

/-! `sequence` -/

@[simp] theorem sequence_x (op : BlockOp) (s : State) : (sequence op s).x = s.x := by unfold sequence; split <;> rfl
@[simp] theorem sequence_nb (op : BlockOp) (s : State) : (sequence op s).nb = s.nb := by unfold sequence; split <;> rfl
@[simp] theorem sequence_phase (op : BlockOp) (s : State) : (sequence op s).phase = s.phase := by
  unfold sequence; split <;> rfl
@[simp] theorem sequence_lovf (op : BlockOp) (s : State) : (sequence op s).lovf = s.lovf := by
  unfold sequence; split <;> rfl
@[simp] theorem sequence_ecode (op : BlockOp) (s : State) : (sequence op s).ecode = s.ecode := by
  unfold sequence; split <;> rfl
@[simp] theorem sequence_port (op : BlockOp) (s : State) : (sequence op s).port = s.port := by
  unfold sequence; split <;> rfl
@[simp] theorem sequence_resp (op : BlockOp) (s : State) : (sequence op s).resp = s.resp := by
  unfold sequence; split <;> rfl
@[simp] theorem sequence_draws (op : BlockOp) (s : State) : (sequence op s).draws = s.draws := by
  unfold sequence; split <;> rfl

/-! The registers by name -/

@[simp] theorem Regs.get_set_same (g : Regs) (r : RegName) (v : Word) : (g.set r v).get r = v := by cases r <;> rfl

theorem Regs.get_set_other (g : Regs) {r q : RegName} (v : Word) (h : q ≠ r) : (g.set r v).get q = g.get q := by
  cases r <;> cases q <;> first | rfl | exact absurd rfl h

theorem Regs.ext_get {g h : Regs} (e : ∀ r, g.get r = h.get r) : g = h := by
  have ea := e .A
  have eb := e .B
  have ec := e .C
  have ed := e .D
  cases g
  cases h
  simp_all [Regs.get]

end Sys2Proof.Machine
end

