-- ==== Sys2Proof/Laws/Ops.lean ====
section
/-! SUPPORT. What the shared operations can do: dispatch, fault entry, the block buffer. -/

namespace Sys2Proof.Machine

/-! ### Dispatch -/

theorem guarded_of_fault {rc : Bool} {ps : List Phase} {body : State → State} {s : State} (h : s.phase = .fault) :
    guarded rc ps body s = .next (respondZeroIf rc s) := by simp [guarded, h]

theorem guarded_of_permitted {rc : Bool} {ps : List Phase} {body : State → State} {s : State}
    (h : s.phase ≠ .fault) (hp : s.phase ∈ ps) : guarded rc ps body s = .next (body s) := by simp [guarded, h, hp]

theorem guarded_of_not_permitted {rc : Bool} {ps : List Phase} {body : State → State} {s : State}
    (h : s.phase ≠ .fault) (hp : s.phase ∉ ps) :
    guarded rc ps body s = .next (raiseFault .badPhase (respondZeroIf rc s)) := by simp [guarded, h, hp]

/-- Everything the dispatch rule can do with a decoded command. -/
theorem guarded_cases {rc : Bool} {ps : List Phase} {body : State → State} {s t : State}
    (h : guarded rc ps body s = .next t) :
    (s.phase = .fault ∧ t = respondZeroIf rc s) ∨
    (s.phase ≠ .fault ∧ s.phase ∈ ps ∧ t = body s) ∨
    (s.phase ≠ .fault ∧ s.phase ∉ ps ∧ t = raiseFault .badPhase (respondZeroIf rc s)) := by
  have e : _ = t := Host.Outcome.next.inj h
  by_cases hf : s.phase = .fault
  · exact .inl ⟨hf, by simpa [hf] using e.symm⟩
  · by_cases hp : s.phase ∈ ps
    · exact .inr (.inl ⟨hf, hp, by simpa [hf, hp] using e.symm⟩)
    · exact .inr (.inr ⟨hf, hp, by simpa [hf, hp] using e.symm⟩)

theorem illegalCommand_of_fault {w : BitVec 16} {s : State} (h : s.phase = .fault) :
    illegalCommand w s = respondZeroIf (readClass w) s := by simp [illegalCommand, h]

theorem illegalCommand_of_not_fault {w : BitVec 16} {s : State} (h : s.phase ≠ .fault) :
    illegalCommand w s = raiseFault .illegalCmd (respondZeroIf (readClass w) s) := by simp [illegalCommand, h]

/-! ### The register file by number -/

/-- Reading by the 2-bit operand is reading by number. -/
theorem Regs.word_eq (g : Regs) (r : BitVec 2) : g.word r = regNumbered g r.toNat := by
  have := r.isLt
  unfold Regs.word regOfNumber
  generalize r.toNat = n at *
  interval_cases n <;> rfl

/-! ### The block buffer -/

@[simp] theorem Block.word_zero (k : BitVec 4) : Block.zero.word k = 0#32 := by simp [Block.word, Block.zero]

theorem Block.word_setWord (x : Block) (k j : BitVec 4) (v : Word) :
    (x.setWord k v).word j = if k = j then v else x.word j := by
  unfold Block.word Block.setWord
  rw [Vector.getElem_set]
  by_cases h : k = j
  · simp [h]
  · have : k.toNat ≠ j.toNat := fun e => h (BitVec.eq_of_toNat_eq e)
    simp [h, this]

theorem Block.ext_word {x y : Block} (h : ∀ k : BitVec 4, x.word k = y.word k) : x = y := by
  apply Vector.ext
  intro i hi
  have := h (BitVec.ofNat 4 i)
  have e : i % 16 = i := Nat.mod_eq_of_lt hi
  simpa [Block.word, BitVec.toNat_ofNat, e] using this

@[simp] theorem memRead1_zero (a : BitVec 6) : memRead1 Block.zero a = 0#8 := by simp [memRead1]

/-- The lane of an address is one of four. -/
theorem laneShift_cases (a : BitVec 6) :
    laneShift a = 0 ∨ laneShift a = 8 ∨ laneShift a = 16 ∨ laneShift a = 24 := by
  unfold laneShift
  have := (a.extractLsb' 0 2).isLt
  omega

/-- A byte address is its word index and its lane (R31). -/
theorem address_ext {a b : BitVec 6} (hw : wordIndex a = wordIndex b) (hl : laneShift a = laneShift b) : a = b := by
  have hl' : a.extractLsb' 0 2 = b.extractLsb' 0 2 := BitVec.eq_of_toNat_eq (by unfold laneShift at hl; omega)
  unfold wordIndex at hw
  apply BitVec.eq_of_getLsbD_eq
  intro i hi
  by_cases h : i < 2
  · simpa [BitVec.getLsbD_extractLsb', h] using congrArg (·.getLsbD i) hl'
  · have := congrArg (·.getLsbD (i - 2)) hw
    have h4 : i - 2 < 4 := by omega
    have h2 : 2 + (i - 2) = i := by omega
    simpa [BitVec.getLsbD_extractLsb', h4, h2] using this

/-- The byte store changes its own lane by OR ... -/
theorem memRead1_orByte_same (x : Block) (a : BitVec 6) (v : Byte) :
    memRead1 (orByte x a v) a = memRead1 x a ||| v := by
  unfold memRead1 orByte
  rw [Block.word_setWord]
  apply BitVec.eq_of_getLsbD_eq
  intro i hi
  have h3 := laneShift_cases a
  have h32 : laneShift a + i < 32 := by omega
  simp [hi, h32]

/-- ... and no other byte. -/
theorem memRead1_orByte_other (x : Block) {a b : BitVec 6} (v : Byte) (h : b ≠ a) :
    memRead1 (orByte x a v) b = memRead1 x b := by
  unfold memRead1 orByte
  rw [Block.word_setWord]
  by_cases hw : wordIndex a = wordIndex b
  · have hl : laneShift b ≠ laneShift a := fun e => h (address_ext hw.symm e)
    rw [if_pos hw]
    apply BitVec.eq_of_getLsbD_eq
    intro i hi
    have ha := laneShift_cases a
    have hb := laneShift_cases b
    have hout : laneShift b + i < laneShift a ∨ 8 ≤ laneShift b + i - laneShift a := by omega
    rcases hout with ho | ho
    · simp [hi, hw, ho]
    · have : v.getLsbD (laneShift b + i - laneShift a) = false := BitVec.getLsbD_of_ge _ _ ho
      simp [hi, hw, this]
  · rw [if_neg hw]

end Sys2Proof.Machine
end

