-- ==== Sys2Proof/Laws/Decode.lean ====
section
/-! SUPPORT. What the command decoder can answer, said once: the word of each command, and one inversion lemma that the
step laws split on. -/

namespace Sys2Proof.Machine

/-! ### The words of the patterns of R47 -/

theorem bit_of_mask {w m v : BitVec 16} (h : w &&& m = v) (i : Nat) :
    (w.getLsbD i && m.getLsbD i) = v.getLsbD i := by rw [← h, BitVec.getLsbD_and]

theorem word_of_pushb_pattern {w : BitVec 16} (h : w &&& 0xFF00#16 = 0x2000#16) : w = 0x20#8 ++ w.extractLsb' 0 8 := by
  apply BitVec.eq_of_getLsbD_eq
  intro i hi
  have b := bit_of_mask h i
  clear h
  rw [show (0x20#8 ++ w.extractLsb' 0 8 : BitVec 16).getLsbD i = _ from BitVec.getLsbD_append]
  interval_cases i <;> simp at b ⊢ <;> exact b

theorem word_of_rdw_pattern {w : BitVec 16} (h : w &&& 0xFFFC#16 = 0x4000#16) :
    w = 0x1000#14 ++ w.extractLsb' 0 2 := by
  apply BitVec.eq_of_getLsbD_eq
  intro i hi
  have b := bit_of_mask h i
  clear h
  rw [show (0x1000#14 ++ w.extractLsb' 0 2 : BitVec 16).getLsbD i = _ from BitVec.getLsbD_append]
  interval_cases i <;> simp at b ⊢ <;> exact b

theorem word_of_rdb_pattern {w : BitVec 16} (h : w &&& 0xFFF0#16 = 0x5000#16) :
    w = 0x500#12 ++ w.extractLsb' 0 4 := by
  apply BitVec.eq_of_getLsbD_eq
  intro i hi
  have b := bit_of_mask h i
  clear h
  rw [show (0x500#12 ++ w.extractLsb' 0 4 : BitVec 16).getLsbD i = _ from BitVec.getLsbD_append]
  interval_cases i <;> simp at b ⊢ <;> exact b

theorem word_of_rdh_pattern {w : BitVec 16} (h : w &&& 0xFFE0#16 = 0x6000#16) :
    w = 0x300#11 ++ w.extractLsb' 0 5 := by
  apply BitVec.eq_of_getLsbD_eq
  intro i hi
  have b := bit_of_mask h i
  clear h
  rw [show (0x300#11 ++ w.extractLsb' 0 5 : BitVec 16).getLsbD i = _ from BitVec.getLsbD_append]
  interval_cases i <;> simp at b ⊢ <;> exact b

/-! ### Decoding those words -/

@[simp] theorem decodeCommand_init : decodeCommand 0x1000#16 = .instr .init := by decide
@[simp] theorem decodeCommand_final : decodeCommand 0x3000#16 = .instr .final := by decide
@[simp] theorem decodeCommand_rds : decodeCommand 0x7000#16 = .instr .rds := by decide

theorem decodeCommand_pushb (b : Byte) : decodeCommand (0x20#8 ++ b) = .instr (.pushb b) := by
  revert b
  decide +kernel

theorem decodeCommand_rdw (r : BitVec 2) : decodeCommand (0x1000#14 ++ r) = .instr (.rdw r) := by
  revert r
  decide +kernel

theorem decodeCommand_rdb (j : BitVec 4) : decodeCommand (0x500#12 ++ j) = .instr (.rdb j) := by
  revert j
  decide +kernel

theorem decodeCommand_rdh (k : BitVec 5) : decodeCommand (0x300#11 ++ k) = .instr (.rdh k) := by
  revert k
  decide +kernel

@[simp] theorem decodeCommand_pushWord (b : Byte) : decodeCommand (pushWord b) = .instr (.pushb b) :=
  decodeCommand_pushb b

@[simp] theorem readClass_pushWord (b : Byte) : readClass (pushWord b) = false := by
  revert b
  decide +kernel

theorem readClass_rdw (r : BitVec 2) : readClass (0x1000#14 ++ r) = true := by
  revert r
  decide +kernel

theorem readClass_rdb (j : BitVec 4) : readClass (0x500#12 ++ j) = true := by
  revert j
  decide +kernel

theorem readClass_rdh (k : BitVec 5) : readClass (0x300#11 ++ k) = true := by
  revert k
  decide +kernel

/-- Everything `Decode` can answer, with the word that makes it answer so. -/
theorem decodeCommand_cases (w : BitVec 16) :
    (w = 0x1000#16 ∧ decodeCommand w = .instr .init) ∨
    (∃ b, w = pushWord b ∧ decodeCommand w = .instr (.pushb b)) ∨
    (w = 0x3000#16 ∧ decodeCommand w = .instr .final) ∨
    (∃ r, w = 0x1000#14 ++ r ∧ decodeCommand w = .instr (.rdw r)) ∨
    (∃ j, w = 0x500#12 ++ j ∧ decodeCommand w = .instr (.rdb j)) ∨
    (∃ k, w = 0x300#11 ++ k ∧ decodeCommand w = .instr (.rdh k)) ∨
    (w = 0x7000#16 ∧ decodeCommand w = .instr .rds) ∨
    (∃ r, decodeCommand w = .illegal r) := by
  by_cases h1 : w = 0x1000#16
  · subst h1; exact .inl ⟨rfl, decodeCommand_init⟩
  by_cases h2 : w &&& 0xFF00#16 = 0x2000#16
  · have e := word_of_pushb_pattern h2
    generalize w.extractLsb' 0 8 = b at e
    subst e
    exact .inr (.inl ⟨b, rfl, decodeCommand_pushb b⟩)
  by_cases h3 : w = 0x3000#16
  · subst h3; exact .inr (.inr (.inl ⟨rfl, decodeCommand_final⟩))
  by_cases h4 : w &&& 0xFFFC#16 = 0x4000#16
  · have e := word_of_rdw_pattern h4
    generalize w.extractLsb' 0 2 = b at e
    subst e
    exact .inr (.inr (.inr (.inl ⟨b, rfl, decodeCommand_rdw b⟩)))
  by_cases h5 : w &&& 0xFFF0#16 = 0x5000#16
  · have e := word_of_rdb_pattern h5
    generalize w.extractLsb' 0 4 = b at e
    subst e
    exact .inr (.inr (.inr (.inr (.inl ⟨b, rfl, decodeCommand_rdb b⟩))))
  by_cases h6 : w &&& 0xFFE0#16 = 0x6000#16
  · have e := word_of_rdh_pattern h6
    generalize w.extractLsb' 0 5 = b at e
    subst e
    exact .inr (.inr (.inr (.inr (.inr (.inl ⟨b, rfl, decodeCommand_rdh b⟩)))))
  by_cases h7 : w = 0x7000#16
  · subst h7; exact .inr (.inr (.inr (.inr (.inr (.inr (.inl ⟨rfl, decodeCommand_rds⟩))))))
  · exact .inr (.inr (.inr (.inr (.inr (.inr (.inr ⟨rejectReason w, by
      simp only [decodeCommand, h1, h2, h3, h4, h5, h6, h7, if_false]⟩))))))

/-! ### The step encoding -/

/-- The code of the micro-operation of a step index is that index (R55). -/
theorem encode_decodeStep (i : BitVec 6) : encode (decodeStep i) = .step i := by
  revert i
  decide +kernel

end Sys2Proof.Machine
end

