-- ==== Sys2Proof/Laws/Engine.lean ====
section
/-! SUPPORT. The Compression Engine and the sequencer: one equation per definition, and what each instruction's `exec`
is. -/

namespace Sys2Proof.Machine

theorem compress_eq (g : Regs) (x : Block) : compress g x = chain g (runSteps 64 g x) := by rw [compress]

@[simp] theorem runSteps_zero (g : Regs) (x : Block) : runSteps 0 g x = g := rfl

theorem runSteps_succ (n : Nat) (g : Regs) (x : Block) :
    runSteps (n + 1) g x = engineStep (BitVec.ofNat 6 n) (runSteps n g x) x := rfl

@[simp] theorem foldBlocks_zero (p : List Word) : foldBlocks p 0 = iv := rfl

theorem foldBlocks_succ (p : List Word) (n : Nat) :
    foldBlocks p (n + 1) = compress (foldBlocks p n) (blockAt p n) := rfl

/-- The fold reads no word beyond its blocks. -/
theorem foldBlocks_congr {p q : List Word} : ∀ {n : Nat},
    (∀ i, i < 16 * n → p.getD i 0#32 = q.getD i 0#32) → foldBlocks p n = foldBlocks q n
  | 0, _ => rfl
  | n + 1, h => by
    rw [foldBlocks_succ, foldBlocks_succ, foldBlocks_congr fun i hi => h i (by omega)]
    congr 1
    apply Vector.ext
    intro i hi
    simpa [blockAt] using h (16 * n + i) (by omega)

/-- Word k of a block of a sequence. -/
theorem word_blockAt (p : List Word) (b : Nat) (k : BitVec 4) : (blockAt p b).word k = p.getD (16 * b + k.toNat) 0#32 := by
  simp [Block.word, blockAt]

/-! ### `exec`, one equation per command -/

theorem exec_init (s : State) : exec .init s = guarded false [.idle, .absorb, .done] initBody s := rfl

theorem exec_pushb (b : Byte) (s : State) : exec (.pushb b) s = guarded false [.absorb] (pushBody b) s := rfl

theorem exec_final (s : State) : exec .final s = guarded false [.absorb] finalBody s := rfl

theorem exec_rdw (r : BitVec 2) (s : State) :
    exec (.rdw r) s = guarded true [.absorb, .done] (fun s => respond (s.regs.word r) s) s := rfl

theorem exec_rdb (j : BitVec 4) (s : State) :
    exec (.rdb j) s = guarded true [.done] (fun s => respond ((unpackByte s.regs j).setWidth 32) s) s := rfl

theorem exec_rdh (k : BitVec 5) (s : State) :
    exec (.rdh k) s = guarded true [.done] (fun s => respond ((hexChar s.regs k).setWidth 32) s) s := rfl

theorem exec_rds (s : State) : exec .rds s = .next (respond (status s) s) := rfl

/-- Every micro-operation is the step of R91 at its own index. -/
theorem exec_decodeStep (i : BitVec 6) (s : State) : exec (decodeStep i) s = .next (stepOp i s) := by
  have h : ∀ i : BitVec 6, (∃ n : Fin 64, i = BitVec.ofNat 6 n.val) := fun i => ⟨⟨i.toNat, i.isLt⟩, by simp⟩
  obtain ⟨n, rfl⟩ := h i
  fin_cases n <;> rfl

/-- No instruction stops the core. -/
theorem exec_next (i : Instr) (s : State) : ∃ t, exec i s = .next t := by cases i <;> exact ⟨_, rfl⟩

/-! ### Steps of the machine -/

theorem step_of_engine {s : State} {op : BlockOp} (h : s.engine = some op) :
    step s = .next (sequence op (stepOp op.index s)) := by
  simp only [step, advance, h, runMicro, exec_decodeStep]

theorem step_of_word {s : State} {w : BitVec 16} {rest : List PortEvent} (he : s.engine = none)
    (hp : s.port = .cmd w :: rest) : step s = runWord w { s with port := rest } := by
  simp only [step, advance, he, hp, runEvent]

theorem step_of_reset {s : State} {rest : List PortEvent} (he : s.engine = none) (hp : s.port = .reset :: rest) :
    step s = .next (resetEvent { s with port := rest }) := by simp only [step, advance, he, hp, runEvent]

theorem step_of_collect {s : State} {rest : List PortEvent} (he : s.engine = none) (hp : s.port = .collect :: rest) :
    step s = .next (collectResponse { s with port := rest }) := by simp only [step, advance, he, hp, runEvent]

theorem step_of_no_event {s : State} (he : s.engine = none) (hp : s.port = []) : step s = .next s := by
  simp only [step, advance, he, hp]

theorem runWord_of_instr {w : BitVec 16} {i : Instr} {s : State} (h : decodeCommand w = .instr i) :
    runWord w s = exec i s := by simp only [runWord, h]

theorem runWord_of_illegal {w : BitVec 16} {r : Reject} {s : State} (h : decodeCommand w = .illegal r) :
    runWord w s = .next (illegalCommand w s) := by simp only [runWord, h]

/-- Everything one step can do. -/
theorem step_cases {s t : State} (h : step s = .next t) :
    (∃ op, s.engine = some op ∧ t = sequence op (stepOp op.index s)) ∨
    (s.engine = none ∧ s.port = [] ∧ t = s) ∨
    (∃ rest, s.engine = none ∧ s.port = .reset :: rest ∧ t = resetEvent { s with port := rest }) ∨
    (∃ rest, s.engine = none ∧ s.port = .collect :: rest ∧ t = collectResponse { s with port := rest }) ∨
    (∃ w rest, s.engine = none ∧ s.port = .cmd w :: rest ∧ runWord w { s with port := rest } = .next t) := by
  rcases Option.eq_none_or_eq_some s.engine with he | ⟨op, he⟩
  · cases hp : s.port with
    | nil =>
      rw [step_of_no_event he hp] at h
      exact .inr (.inl ⟨he, rfl, (Host.Outcome.next.inj h).symm⟩)
    | cons e rest =>
      cases e with
      | reset =>
        rw [step_of_reset he hp] at h
        exact .inr (.inr (.inl ⟨rest, he, rfl, (Host.Outcome.next.inj h).symm⟩))
      | collect =>
        rw [step_of_collect he hp] at h
        exact .inr (.inr (.inr (.inl ⟨rest, he, rfl, (Host.Outcome.next.inj h).symm⟩)))
      | cmd w =>
        rw [step_of_word he hp] at h
        exact .inr (.inr (.inr (.inr ⟨w, rest, he, rfl, h⟩)))
  · rw [step_of_engine he] at h
    exact .inl ⟨op, he, (Host.Outcome.next.inj h).symm⟩

/-- Everything a command word can do: the body of a permitted command, RDS, or one of the two faults, or in FAULT
nothing but the zero response. -/
theorem runWord_cases {w : BitVec 16} {s t : State} (h : runWord w s = .next t) :
    (w = 0x7000#16 ∧ t = respond (status s) s) ∨
    (w ≠ 0x7000#16 ∧ s.phase = .fault ∧ t = respondZeroIf (readClass w) s) ∨
    ((∃ r, decodeCommand w = .illegal r) ∧ s.phase ≠ .fault ∧
      t = raiseFault .illegalCmd (respondZeroIf (readClass w) s)) ∨
    (∃ i, decodeCommand w = .instr i ∧ i ≠ .rds ∧ s.phase ≠ .fault ∧ permitted i s.phase = false ∧
      t = raiseFault .badPhase (respondZeroIf (readClass w) s)) ∨
    (w = 0x1000#16 ∧ s.phase ≠ .fault ∧ t = initBody s) ∨
    (∃ b, w = pushWord b ∧ s.phase = .absorb ∧ t = pushBody b s) ∨
    (w = 0x3000#16 ∧ s.phase = .absorb ∧ t = finalBody s) ∨
    (∃ v, readClass w = true ∧ w ≠ 0x7000#16 ∧ (s.phase = .absorb ∨ s.phase = .done) ∧ t = respond v s) := by
  rcases decodeCommand_cases w with ⟨rfl, d⟩ | ⟨b, rfl, d⟩ | ⟨rfl, d⟩ | ⟨r, rfl, d⟩ | ⟨j, rfl, d⟩ | ⟨k, rfl, d⟩ |
    ⟨rfl, d⟩ | ⟨r, d⟩
  · rw [runWord_of_instr d, exec_init] at h
    rcases guarded_cases h with ⟨hf, rfl⟩ | ⟨hf, -, rfl⟩ | ⟨hf, hp, rfl⟩
    · exact .inr (.inl ⟨by decide, hf, rfl⟩)
    · exact .inr (.inr (.inr (.inr (.inl ⟨rfl, hf, rfl⟩))))
    · cases hs : s.phase <;> simp [hs] at hf hp
  · rw [runWord_of_instr d, exec_pushb] at h
    rcases guarded_cases h with ⟨hf, rfl⟩ | ⟨-, hp, rfl⟩ | ⟨hf, hp, rfl⟩
    · refine .inr (.inl ⟨fun e => ?_, hf, by rw [readClass_pushWord]; rfl⟩)
      rw [e] at d
      simp at d
    · exact .inr (.inr (.inr (.inr (.inr (.inl ⟨b, rfl, by simpa using hp, rfl⟩)))))
    · refine .inr (.inr (.inr (.inl ⟨_, d, by simp, hf, ?_, by rw [readClass_pushWord]⟩)))
      cases hs : s.phase <;> simp [hs, permitted] at hf hp ⊢
  · rw [runWord_of_instr d, exec_final] at h
    rcases guarded_cases h with ⟨hf, rfl⟩ | ⟨-, hp, rfl⟩ | ⟨hf, hp, rfl⟩
    · exact .inr (.inl ⟨by decide, hf, rfl⟩)
    · exact .inr (.inr (.inr (.inr (.inr (.inr (.inl ⟨rfl, by simpa using hp, rfl⟩))))))
    · refine .inr (.inr (.inr (.inl ⟨_, d, by simp, hf, ?_, rfl⟩)))
      cases hs : s.phase <;> simp [hs, permitted] at hf hp ⊢
  · have hw : (0x1000#14 ++ r : BitVec 16) ≠ 0x7000#16 := fun e => by rw [e] at d; simp at d
    rw [runWord_of_instr d, exec_rdw] at h
    rcases guarded_cases h with ⟨hf, rfl⟩ | ⟨-, hp, rfl⟩ | ⟨hf, hp, rfl⟩
    · exact .inr (.inl ⟨hw, hf, by rw [readClass_rdw]⟩)
    · exact .inr (.inr (.inr (.inr (.inr (.inr (.inr ⟨_, readClass_rdw r, hw, by simpa using hp, rfl⟩))))))
    · refine .inr (.inr (.inr (.inl ⟨_, d, by simp, hf, ?_, by rw [readClass_rdw]⟩)))
      cases hs : s.phase <;> simp [hs, permitted] at hf hp ⊢
  · have hw : (0x500#12 ++ j : BitVec 16) ≠ 0x7000#16 := fun e => by rw [e] at d; simp at d
    rw [runWord_of_instr d, exec_rdb] at h
    rcases guarded_cases h with ⟨hf, rfl⟩ | ⟨-, hp, rfl⟩ | ⟨hf, hp, rfl⟩
    · exact .inr (.inl ⟨hw, hf, by rw [readClass_rdb]⟩)
    · exact .inr (.inr (.inr (.inr (.inr (.inr (.inr ⟨_, readClass_rdb j, hw, .inr (by simpa using hp), rfl⟩))))))
    · refine .inr (.inr (.inr (.inl ⟨_, d, by simp, hf, ?_, by rw [readClass_rdb]⟩)))
      cases hs : s.phase <;> simp [hs, permitted] at hf hp ⊢
  · have hw : (0x300#11 ++ k : BitVec 16) ≠ 0x7000#16 := fun e => by rw [e] at d; simp at d
    rw [runWord_of_instr d, exec_rdh] at h
    rcases guarded_cases h with ⟨hf, rfl⟩ | ⟨-, hp, rfl⟩ | ⟨hf, hp, rfl⟩
    · exact .inr (.inl ⟨hw, hf, by rw [readClass_rdh]⟩)
    · exact .inr (.inr (.inr (.inr (.inr (.inr (.inr ⟨_, readClass_rdh k, hw, .inr (by simpa using hp), rfl⟩))))))
    · refine .inr (.inr (.inr (.inl ⟨_, d, by simp, hf, ?_, by rw [readClass_rdh]⟩)))
      cases hs : s.phase <;> simp [hs, permitted] at hf hp ⊢
  · rw [runWord_of_instr d, exec_rds] at h
    exact .inl ⟨rfl, (Host.Outcome.next.inj h).symm⟩
  · have hw : w ≠ 0x7000#16 := fun e => by rw [e] at d; simp at d
    rw [runWord_of_illegal d] at h
    have e := (Host.Outcome.next.inj h).symm
    by_cases hf : s.phase = .fault
    · exact .inr (.inl ⟨hw, hf, by rw [e, illegalCommand_of_fault hf]⟩)
    · exact .inr (.inr (.inl ⟨⟨r, d⟩, hf, by rw [e, illegalCommand_of_not_fault hf]⟩))

end Sys2Proof.Machine
end

