-- ==== Sys2Proof/Laws/Operands.lean ====
section
/-! SUPPORT. The operand forms as numbers: the buffer address, its word and its lane, the bit length, the rotation. -/

namespace Sys2Proof.Machine

@[simp] theorem bufAddress_toNat (nb : BitVec 29) : (bufAddress nb).toNat = nb.toNat % 64 := by simp [bufAddress]

theorem wordIndex_toNat (a : BitVec 6) : (wordIndex a).toNat = a.toNat / 4 := by
  simp [wordIndex, Nat.shiftRight_eq_div_pow]
  omega

theorem wordIndex_eq (a : BitVec 6) : wordIndex a = BitVec.ofNat 4 (a.toNat / 4) :=
  BitVec.eq_of_toNat_eq (by rw [wordIndex_toNat]; simp; omega)

theorem laneShift_eq (a : BitVec 6) : laneShift a = 8 * (a.toNat % 4) := by simp [laneShift]

theorem bufAddress_eq_63 (nb : BitVec 29) : bufAddress nb = 63#6 ↔ nb.toNat % 64 = 63 := by
  rw [← bufAddress_toNat]
  exact ⟨fun h => by rw [h]; rfl, fun h => BitVec.eq_of_toNat_eq h⟩

theorem le_bufAddress_56 (nb : BitVec 29) : 56#6 ≤ bufAddress nb ↔ 56 ≤ nb.toNat % 64 := by
  rw [BitVec.le_def, bufAddress_toNat]
  rfl

theorem bitLength_eq (nb : BitVec 29) : bitLength nb = BitVec.ofNat 32 (8 * nb.toNat) := by
  apply BitVec.eq_of_toNat_eq
  have := nb.isLt
  simp [bitLength, Nat.shiftLeft_eq]
  omega

theorem nb_add_one (nb : BitVec 29) : nb + 1#29 = BitVec.ofNat 29 (nb.toNat + 1) := by
  apply BitVec.eq_of_toNat_eq
  simp

theorem lovfAfterPush_eq (nb : BitVec 29) (l : Bool) :
    lovfAfterPush nb l = if nb.toNat = 2 ^ 29 - 1 then true else l := by
  have : nb = 0x1FFFFFFF#29 ↔ nb.toNat = 2 ^ 29 - 1 := ⟨fun h => by rw [h]; rfl, fun h => BitVec.eq_of_toNat_eq h⟩
  simp only [lovfAfterPush, this]

/-- The byte store at NB[5:0] as the rules write it (R71, R82). -/
theorem orByte_bufAddress (x : Block) (nb : BitVec 29) (b : Byte) :
    orByte x (bufAddress nb) b = x.setWord (BitVec.ofNat 4 (nb.toNat % 64 / 4))
      (x.word (BitVec.ofNat 4 (nb.toNat % 64 / 4)) ||| (b.setWidth 32 <<< (8 * (nb.toNat % 64 % 4)))) := by
  rw [orByte, wordIndex_eq, laneShift_eq, bufAddress_toNat]

theorem Block.setWord_self (x : Block) (k : BitVec 4) : x.setWord k (x.word k) = x := by
  apply Block.ext_word
  intro j
  rw [Block.word_setWord]
  split
  · subst_vars; rfl
  · rfl

/-- The rotation of R7 is the library's, for the counts it is used with. -/
theorem rotl32_eq_rotateLeft (x : Word) {n : Nat} (h : n < 32) : rotl32 x n = x.rotateLeft n := by
  rw [BitVec.rotateLeft_def, Nat.mod_eq_of_lt h, rotl32]

theorem tableS_lt (i : BitVec 6) : tableS i < 32 := by
  revert i
  decide +kernel

end Sys2Proof.Machine
end

