-- ==== Sys2Proof/Laws/Run.lean ====
section
/-! SUPPORT. Runs of several steps: how `Host.Core.run` of this core unfolds, one step or one run at a time. -/

namespace Sys2Proof.Machine

theorem run_zero (s : State) : (Sys2Proof.core.run 0 s : Host.Outcome State Fault Refusal) = .next s := rfl

theorem Core.run_of_step (M : Host.Core) (n : Nat) {s t : M.State} (h : M.step s = .next t) :
    M.run (n + 1) s = M.run n t := by
  rw [Host.Core.run, h]

theorem run_succ {s t : State} (h : step s = .next t) (n : Nat) :
    (Sys2Proof.core.run (n + 1) s : Host.Outcome State Fault Refusal) = Sys2Proof.core.run n t :=
  Core.run_of_step Sys2Proof.core n h

theorem run_one {s t : State} (h : step s = .next t) :
    (Sys2Proof.core.run 1 s : Host.Outcome State Fault Refusal) = .next t := by rw [run_succ h 0, run_zero]

/-- The core never stops, so a run of n + 1 steps is one step and a run of n. -/
theorem step_next (s : State) : ∃ t, step s = .next t := by
  rcases Option.eq_none_or_eq_some s.engine with he | ⟨op, he⟩
  · cases hp : s.port with
    | nil => exact ⟨_, step_of_no_event he hp⟩
    | cons e rest =>
      cases e with
      | reset => exact ⟨_, step_of_reset he hp⟩
      | collect => exact ⟨_, step_of_collect he hp⟩
      | cmd w =>
        rw [step_of_word he hp]
        rcases decodeCommand_cases w with ⟨-, d⟩ | ⟨b, -, d⟩ | ⟨-, d⟩ | ⟨r, -, d⟩ | ⟨j, -, d⟩ | ⟨k, -, d⟩ | ⟨-, d⟩ |
          ⟨r, d⟩
        · exact ⟨_, runWord_of_instr d⟩
        · exact ⟨_, runWord_of_instr d⟩
        · exact ⟨_, runWord_of_instr d⟩
        · exact ⟨_, runWord_of_instr d⟩
        · exact ⟨_, runWord_of_instr d⟩
        · exact ⟨_, runWord_of_instr d⟩
        · exact ⟨_, runWord_of_instr d⟩
        · exact ⟨_, runWord_of_illegal d⟩
  · exact ⟨_, step_of_engine he⟩

theorem run_add {s t : State} {m : Nat} (h : (Sys2Proof.core.run m s : Host.Outcome State Fault Refusal) = .next t)
    (n : Nat) : (Sys2Proof.core.run (m + n) s : Host.Outcome State Fault Refusal) = Sys2Proof.core.run n t := by
  induction m generalizing s with
  | zero =>
    rw [run_zero] at h
    cases h
    rw [Nat.zero_add]
  | succ m ih =>
    obtain ⟨u, hu⟩ := step_next s
    rw [run_succ hu] at h
    rw [show m + 1 + n = m + n + 1 by omega, run_succ hu]
    exact ih h

end Sys2Proof.Machine
end

