-- ==== Sys2Proof/Laws/Message.lean ====
section
/-! SUPPORT. The words of a message: a packed word as four bytes, what one more byte changes, and the length index. -/

namespace Sys2Proof.Machine

/-- A packed word is its four bytes, the first lowest. -/
theorem packWord_eq_append (m : List Byte) (i : Nat) : packWord m i =
    m.getD (4 * i + 3) 0#8 ++ m.getD (4 * i + 2) 0#8 ++ m.getD (4 * i + 1) 0#8 ++ m.getD (4 * i) 0#8 := by
  unfold packWord messageByte
  generalize m.getD (4 * i) 0#8 = a
  generalize m.getD (4 * i + 1) 0#8 = b
  generalize m.getD (4 * i + 2) 0#8 = c
  generalize m.getD (4 * i + 3) 0#8 = d
  apply BitVec.eq_of_toNat_eq
  have := a.isLt; have := b.isLt; have := c.isLt; have := d.isLt
  simp only [BitVec.toNat_append, BitVec.toNat_add, BitVec.toNat_shiftLeft, BitVec.toNat_setWidth]
  rw [← Nat.shiftLeft_add_eq_or_of_lt (by omega), ← Nat.shiftLeft_add_eq_or_of_lt (by omega),
    ← Nat.shiftLeft_add_eq_or_of_lt (by omega)]
  simp only [Nat.shiftLeft_eq]
  omega

/-- Beyond the end of the packed sequence both readings are 0. -/
theorem pack_getD (m : List Byte) (i : Nat) : (pack m).getD i 0#32 = packWord m i := by
  by_cases h : i < (m.length + 3) / 4
  · simp [pack, h]
  · have hz : ∀ k, m.getD (4 * i + k) 0#8 = 0#8 := fun k => by
      simp [List.getD_eq_getElem?_getD, List.getElem?_eq_none (by omega : m.length ≤ 4 * i + k)]
    have hz0 := hz 0
    rw [Nat.add_zero] at hz0
    rw [packWord_eq_append, hz, hz, hz, hz0]
    simp [pack, h]

theorem byte_shift_eq_append (b : Byte) {q : Nat} (h : q < 4) : (b.setWidth 32 <<< (8 * q) : Word) =
    (if q = 3 then b else 0#8) ++ (if q = 2 then b else 0#8) ++ (if q = 1 then b else 0#8)
      ++ (if q = 0 then b else 0#8) := by
  revert b q
  decide +kernel

/-- One more byte is OR-ed into its lane of its word. -/
theorem packWord_push (m : List Byte) (b : Byte) (i : Nat) : packWord (m ++ [b]) i =
    packWord m i ||| (if i = m.length / 4 then b.setWidth 32 <<< (8 * (m.length % 4)) else 0#32) := by
  have e : ∀ p, (m ++ [b]).getD p 0#8 = m.getD p 0#8 ||| (if p = m.length then b else 0#8) := by
    intro p
    rcases Nat.lt_trichotomy p m.length with h | h | h
    · simp [List.getD_eq_getElem?_getD, List.getElem?_append, h, Nat.ne_of_lt h]
    · subst h; simp [List.getD_eq_getElem?_getD]
    · have h1 : (m ++ [b]).length ≤ p := by simp; omega
      simp only [List.getD_eq_getElem?_getD, List.getElem?_eq_none h1, List.getElem?_eq_none (Nat.le_of_lt h),
        Nat.ne_of_gt h, if_false]
      rfl
  have o : ∀ a b c d a' b' c' d' : Byte, (d ||| d') ++ (c ||| c') ++ (b ||| b') ++ (a ||| a') =
      ((d ++ c ++ b ++ a : Word) ||| (d' ++ c' ++ b' ++ a' : Word)) := by
    intro a b c d a' b' c' d'
    apply BitVec.eq_of_getLsbD_eq
    intro i hi
    simp only [BitVec.getLsbD_or, BitVec.getLsbD_append]
    split <;> [rfl; split <;> [rfl; split <;> rfl]]
  simp only [packWord_eq_append, e, o]
  congr 1
  by_cases h : i = m.length / 4
  · rw [if_pos h, byte_shift_eq_append b (by omega : m.length % 4 < 4)]
    have h0 : (4 * i = m.length) = (m.length % 4 = 0) := propext ⟨by omega, by omega⟩
    have h1 : (4 * i + 1 = m.length) = (m.length % 4 = 1) := propext ⟨by omega, by omega⟩
    have h2 : (4 * i + 2 = m.length) = (m.length % 4 = 2) := propext ⟨by omega, by omega⟩
    have h3 : (4 * i + 3 = m.length) = (m.length % 4 = 3) := propext ⟨by omega, by omega⟩
    simp only [h0, h1, h2, h3]
  · rw [if_neg h, if_neg (by omega), if_neg (by omega), if_neg (by omega), if_neg (by omega)]
    rfl

/-- The index of the length word, from the byte count (R80). -/
theorem lengthIndex_eq (n : Nat) : lengthIndex (8 * n) = 16 * ((n + 8) / 64) + 14 := by
  simp only [lengthIndex, Nat.shiftRight_eq_div_pow, Nat.shiftLeft_eq]
  omega

@[simp] theorem length_pack (m : List Byte) : (pack m).length = (m.length + 3) / 4 := by simp [pack]

@[simp] theorem length_pad (w : List Word) (n : Nat) : (pad w n).length = lengthIndex (8 * n) + 2 := by simp [pad]

@[simp] theorem length_unpack (g : Regs) : (unpack g).length = 16 := by simp [unpack]

end Sys2Proof.Machine
end

