-- ==== Sys2Proof/Laws/PerInstr.lean ====
section
/-! SUPPORT. One lemma per constructor: the code of every instruction is well formed (R46, R51, R55). -/

namespace Sys2Proof.Laws.EncodeWellFormed

/-- The code of `i` is well formed. -/
def Statement : Instr → Prop := fun i => (encode i).wellFormed = true

theorem init : Statement .init := by unfold Statement; decide
theorem pushb (imm8 : Byte) : Statement (.pushb imm8) := by unfold Statement; revert imm8; decide +kernel
theorem final : Statement .final := by unfold Statement; decide
theorem rdw (r : BitVec 2) : Statement (.rdw r) := by unfold Statement; revert r; decide +kernel
theorem rdb (j : BitVec 4) : Statement (.rdb j) := by unfold Statement; revert j; decide +kernel
theorem rdh (k : BitVec 5) : Statement (.rdh k) := by unfold Statement; revert k; decide +kernel
theorem rds : Statement .rds := by unfold Statement; decide
theorem ff0 : Statement .ff0 := rfl
theorem ff1 : Statement .ff1 := rfl
theorem ff2 : Statement .ff2 := rfl
theorem ff3 : Statement .ff3 := rfl
theorem ff4 : Statement .ff4 := rfl
theorem ff5 : Statement .ff5 := rfl
theorem ff6 : Statement .ff6 := rfl
theorem ff7 : Statement .ff7 := rfl
theorem ff8 : Statement .ff8 := rfl
theorem ff9 : Statement .ff9 := rfl
theorem ff10 : Statement .ff10 := rfl
theorem ff11 : Statement .ff11 := rfl
theorem ff12 : Statement .ff12 := rfl
theorem ff13 : Statement .ff13 := rfl
theorem ff14 : Statement .ff14 := rfl
theorem ff15 : Statement .ff15 := rfl
theorem gg16 : Statement .gg16 := rfl
theorem gg17 : Statement .gg17 := rfl
theorem gg18 : Statement .gg18 := rfl
theorem gg19 : Statement .gg19 := rfl
theorem gg20 : Statement .gg20 := rfl
theorem gg21 : Statement .gg21 := rfl
theorem gg22 : Statement .gg22 := rfl
theorem gg23 : Statement .gg23 := rfl
theorem gg24 : Statement .gg24 := rfl
theorem gg25 : Statement .gg25 := rfl
theorem gg26 : Statement .gg26 := rfl
theorem gg27 : Statement .gg27 := rfl
theorem gg28 : Statement .gg28 := rfl
theorem gg29 : Statement .gg29 := rfl
theorem gg30 : Statement .gg30 := rfl
theorem gg31 : Statement .gg31 := rfl
theorem hh32 : Statement .hh32 := rfl
theorem hh33 : Statement .hh33 := rfl
theorem hh34 : Statement .hh34 := rfl
theorem hh35 : Statement .hh35 := rfl
theorem hh36 : Statement .hh36 := rfl
theorem hh37 : Statement .hh37 := rfl
theorem hh38 : Statement .hh38 := rfl
theorem hh39 : Statement .hh39 := rfl
theorem hh40 : Statement .hh40 := rfl
theorem hh41 : Statement .hh41 := rfl
theorem hh42 : Statement .hh42 := rfl
theorem hh43 : Statement .hh43 := rfl
theorem hh44 : Statement .hh44 := rfl
theorem hh45 : Statement .hh45 := rfl
theorem hh46 : Statement .hh46 := rfl
theorem hh47 : Statement .hh47 := rfl
theorem ii48 : Statement .ii48 := rfl
theorem ii49 : Statement .ii49 := rfl
theorem ii50 : Statement .ii50 := rfl
theorem ii51 : Statement .ii51 := rfl
theorem ii52 : Statement .ii52 := rfl
theorem ii53 : Statement .ii53 := rfl
theorem ii54 : Statement .ii54 := rfl
theorem ii55 : Statement .ii55 := rfl
theorem ii56 : Statement .ii56 := rfl
theorem ii57 : Statement .ii57 := rfl
theorem ii58 : Statement .ii58 := rfl
theorem ii59 : Statement .ii59 := rfl
theorem ii60 : Statement .ii60 := rfl
theorem ii61 : Statement .ii61 := rfl
theorem ii62 : Statement .ii62 := rfl
theorem ii63 : Statement .ii63 := rfl

end Sys2Proof.Laws.EncodeWellFormed
end

