-- ==== Sys2Proof/Tests/Slice0.lean ====
section
/-! SUPPORT. Tests and witnesses. Every expected value of a test comes from spec/95_test_vectors.md (the section is
named) or is written out from the spec's encoding tables; a witness shows concrete inputs that meet the hypotheses of
the obligation it is named after. Many small kernel computations stand here: they are checked one after another, so that
their threads do not pile up. -/

set_option Elab.async false

open Sys2Proof Sys2Proof.Machine

namespace Sys2Proof.Tests

/-- A small state: the given phase, registers, block buffer, counter and LOVF, nothing waiting at a port. -/
def st (p : Phase) (g : Regs := iv) (x : Block := Block.zero) (nb : BitVec 29 := 0#29) (lovf : Bool := false) : State :=
  { x := x, nb := nb, phase := p, lovf := lovf, ecode := if p = .fault then .badPhase else .none
    engine := none, port := [], resp := [], draws := 0, regs := g }

/-- The same with one command word waiting. -/
def fed (w : BitVec 16) (s : State) : State := { s with port := [.cmd w] }

/-- The next state, if there is one. -/
def next? (o : Host.Outcome State Fault Refusal) : Option State :=
  match o with
  | .next s => some s
  | .fault _ => none
  | .refused _ => none

/-- A field of the next state. -/
def after {α : Type} (f : State → α) (o : Host.Outcome State Fault Refusal) : Option α := (next? o).map f

/-- A block given by its first words, the rest 0. -/
def blk (ws : List Word) : Block := blockAt ws 0

/-! ### Well-formedness: one ill-formed term for each check -/

theorem test_wordWellFormed_refuses_unassigned_opcode :
    wordWellFormed 0x0000#16 = false ∧ wordWellFormed 0x8000#16 = false ∧ wordWellFormed 0xFFFF#16 = false := by decide

theorem test_wordWellFormed_refuses_format_z :
    wordWellFormed 0x1001#16 = false ∧ wordWellFormed 0x3800#16 = false ∧ wordWellFormed 0x7001#16 = false := by decide

theorem test_wordWellFormed_refuses_format_b : wordWellFormed 0x2100#16 = false := by decide

theorem test_wordWellFormed_refuses_format_r : wordWellFormed 0x4004#16 = false := by decide

theorem test_wordWellFormed_refuses_format_j : wordWellFormed 0x5010#16 = false := by decide

theorem test_wordWellFormed_refuses_format_k : wordWellFormed 0x6020#16 = false := by decide

theorem test_wordWellFormed_accepts :
    [0x1000#16, 0x2000#16, 0x20FF#16, 0x3000#16, 0x4003#16, 0x500F#16, 0x601F#16, 0x7000#16].all wordWellFormed = true := by
  decide

theorem test_asmLine_refuses_pushb : (AsmLine.pushb 256).wellFormed = false ∧ assemble (.pushb 256) = none := by decide

theorem test_asmLine_refuses_pushbChar : (AsmLine.pushbChar 'é').wellFormed = false := by decide

theorem test_asmLine_refuses_rdw : (AsmLine.rdw 4).wellFormed = false ∧ assemble (.rdw 4) = none := by decide

theorem test_asmLine_refuses_rdb : (AsmLine.rdb 16).wellFormed = false ∧ assemble (.rdb 16) = none := by decide

theorem test_asmLine_refuses_rdh : (AsmLine.rdh 32).wellFormed = false ∧ assemble (.rdh 32) = none := by decide

theorem test_asmLine_refuses_word : (AsmLine.word 65536).wellFormed = false ∧ assemble (.word 65536) = none := by decide

/-! ### Decoding: words written out from the encoding tables (R46, R47, R55) -/

theorem test_decode_init : decode (.cmd 0b0001000000000000#16) = .instr .init := by decide

theorem test_decode_pushb : decode (.cmd 0b0010000010100110#16) = .instr (.pushb 0xA6#8) := by decide

theorem test_decode_final : decode (.cmd 0b0011000000000000#16) = .instr .final := by decide

theorem test_decode_rdw : decode (.cmd 0b0100000000000010#16) = .instr (.rdw 2#2) := by decide

theorem test_decode_rdb : decode (.cmd 0b0101000000001011#16) = .instr (.rdb 11#4) := by decide

theorem test_decode_rdh : decode (.cmd 0b0110000000010110#16) = .instr (.rdh 22#5) := by decide

theorem test_decode_rds : decode (.cmd 0b0111000000000000#16) = .instr .rds := by decide

theorem test_decode_ff_codes : ∀ p ∈ ([
    (0b000000#6, .ff0), (0b000001#6, .ff1), (0b000010#6, .ff2), (0b000011#6, .ff3),
    (0b000100#6, .ff4), (0b000101#6, .ff5), (0b000110#6, .ff6), (0b000111#6, .ff7),
    (0b001000#6, .ff8), (0b001001#6, .ff9), (0b001010#6, .ff10), (0b001011#6, .ff11),
    (0b001100#6, .ff12), (0b001101#6, .ff13), (0b001110#6, .ff14), (0b001111#6, .ff15)] : List (BitVec 6 × Instr)),
    decode (.step p.1) = .instr p.2 := by decide +kernel

theorem test_decode_gg_codes : ∀ p ∈ ([
    (0b010000#6, .gg16), (0b010001#6, .gg17), (0b010010#6, .gg18), (0b010011#6, .gg19),
    (0b010100#6, .gg20), (0b010101#6, .gg21), (0b010110#6, .gg22), (0b010111#6, .gg23),
    (0b011000#6, .gg24), (0b011001#6, .gg25), (0b011010#6, .gg26), (0b011011#6, .gg27),
    (0b011100#6, .gg28), (0b011101#6, .gg29), (0b011110#6, .gg30), (0b011111#6, .gg31)] : List (BitVec 6 × Instr)),
    decode (.step p.1) = .instr p.2 := by decide +kernel

theorem test_decode_hh_codes : ∀ p ∈ ([
    (0b100000#6, .hh32), (0b100001#6, .hh33), (0b100010#6, .hh34), (0b100011#6, .hh35),
    (0b100100#6, .hh36), (0b100101#6, .hh37), (0b100110#6, .hh38), (0b100111#6, .hh39),
    (0b101000#6, .hh40), (0b101001#6, .hh41), (0b101010#6, .hh42), (0b101011#6, .hh43),
    (0b101100#6, .hh44), (0b101101#6, .hh45), (0b101110#6, .hh46), (0b101111#6, .hh47)] : List (BitVec 6 × Instr)),
    decode (.step p.1) = .instr p.2 := by decide +kernel

theorem test_decode_ii_codes : ∀ p ∈ ([
    (0b110000#6, .ii48), (0b110001#6, .ii49), (0b110010#6, .ii50), (0b110011#6, .ii51),
    (0b110100#6, .ii52), (0b110101#6, .ii53), (0b110110#6, .ii54), (0b110111#6, .ii55),
    (0b111000#6, .ii56), (0b111001#6, .ii57), (0b111010#6, .ii58), (0b111011#6, .ii59),
    (0b111100#6, .ii60), (0b111101#6, .ii61), (0b111110#6, .ii62), (0b111111#6, .ii63)] : List (BitVec 6 × Instr)),
    decode (.step p.1) = .instr p.2 := by decide +kernel

/-- 95_test_vectors.md section 2.8, the illegal rows. -/
theorem test_decode_unassigned : [0x0000#16, 0x8000#16, 0xFFFF#16].map decodeCommand =
    List.replicate 3 (.illegal .unassignedOpcode) := by decide +kernel

theorem test_decode_overlong : [0x1001#16, 0x2100#16, 0x3800#16, 0x4004#16, 0x5010#16, 0x6020#16,
    0x7001#16].map decodeCommand = List.replicate 7 (.illegal .mustBeZeroBitSet) := by decide +kernel

theorem test_decodeTableWord : decodeTableWord 16 0x20FF = some (.pushb 0xFF#8) ∧ decodeTableWord 16 0x2100 = none ∧
    decodeTableWord 8 0b011010 = some .gg26 ∧ decodeTableWord 6 0b111111 = some .ii63 ∧
    decodeTableWord 8 0b01000000 = none := by decide

/-- R56 and R57: the word column and the expansions. -/
theorem test_assemble : assemble (.pushbChar 'a') = some [0x2061#16] ∧ assemble (.rdwName .C) = some [0x4002#16] ∧
    assemble (.rdb 15) = some [0x500F#16] ∧ assemble (.word 0xFFFF) = some [0xFFFF#16] ∧
    (assemble .rddig).map List.length = some 16 ∧ (assemble .rdhex).bind List.getLast? = some 0x601F#16 := by
  decide +kernel

/-- The UTF-8 code units of a two-byte character. -/
theorem test_assemble_pushs : assemble (.pushs "aé") = some [0x2061#16, 0x20C3#16, 0x20A9#16] := by decide +kernel

theorem test_assemble_digest : (assemble (.digest "abc")).map (List.take 6) =
    some [0x1000#16, 0x2061#16, 0x2062#16, 0x2063#16, 0x3000#16, 0x6000#16] := by decide +kernel

/-- R56: the notation of the small programs of section 3, with a comment, a blank line and both number bases. -/
theorem test_assembleText : assembleText "INIT ; begin\n\n  PUSHB 'a'\nPUSHB 0x3B ; semicolon\nPUSHB ';'\nFINAL\nRDW A\nRDB 15\nRDH 0x1f\n.word 0xFFFF\nRDS" =
    some [0x1000#16, 0x2061#16, 0x203B#16, 0x203B#16, 0x3000#16, 0x4000#16, 0x500F#16, 0x601F#16, 0xFFFF#16,
      0x7000#16] := by decide +kernel

/-- An operand out of range, a lower-case mnemonic, and a missing operand are assembly errors. -/
theorem test_assembleText_errors : assembleText "PUSHB 256" = none ∧ assembleText "init" = none ∧
    assembleText "RDB" = none ∧ assembleText "RDW E" = none := by decide +kernel

theorem test_assembleText_pushs : assembleText "PUSHS \"a;é\"" = some [0x2061#16, 0x203B#16, 0x20C3#16, 0x20A9#16] := by
  decide +kernel

/-! ### The pure functions -/

/-- Section 2.1. -/
theorem test_pack : pack [0x61#8, 0x62#8, 0x63#8, 0x64#8, 0x65#8] = [0x64636261#32, 0x00000065#32] ∧
    pack [0xff#8, 0#8, 0#8, 0x80#8] = [0x800000ff#32] ∧ pack [] = [] := by decide

/-- Section 2.2, rows N = 3, 55 and 56. -/
theorem test_pad : (pad [0x00616161#32] 3).length = 16 ∧ (pad [0x00616161#32] 3).getD 0 0#32 = 0x80616161#32 ∧
    (pad [0x00616161#32] 3).getD 14 0#32 = 0x18#32 ∧
    (pad (List.replicate 13 0x61616161#32 ++ [0x00616161#32]) 55).getD 13 0#32 = 0x80616161#32 ∧
    (pad (List.replicate 14 0x61616161#32) 56).length = 32 ∧
    (pad (List.replicate 14 0x61616161#32) 56).getD 14 0#32 = 0x80#32 ∧
    (pad (List.replicate 14 0x61616161#32) 56).getD 30 0#32 = 0x1c0#32 := by decide +kernel

/-- Section 2.3, the mixed rows. -/
theorem test_round_functions : f1 0xaaaaaaaa#32 0xffff0000#32 0x00ffff00#32 = 0xaaff5500#32 ∧
    f2 0xaaaaaaaa#32 0xffff0000#32 0x00ffff00#32 = 0xffaaaa00#32 ∧
    f3 0xaaaaaaaa#32 0xffff0000#32 0x00ffff00#32 = 0x55aa55aa#32 ∧
    f4 0xaaaaaaaa#32 0xffff0000#32 0x00ffff00#32 = 0x0055aaff#32 := by decide

theorem test_rotl32 : rotl32 0x80000000#32 7 = 0x00000040#32 ∧ rotl32 0x00000001#32 23 = 0x00800000#32 ∧
    rotl32 0x12345678#32 4 = 0x23456781#32 ∧ rotl32 0xdeadbeef#32 21 = 0xddfbd5b7#32 := by decide

theorem test_add32 : add32 0xffffffff#32 0xffffffff#32 = 0xfffffffe#32 ∧
    add32 0x67452301#32 0xd98c1dd4#32 = 0x40d140d5#32 := by decide

/-- Section 2.4: X[j] = j. -/
theorem test_compress : compress iv (blk [0#32, 1#32, 2#32, 3#32, 4#32, 5#32, 6#32, 7#32, 8#32, 9#32, 10#32, 11#32, 12#32,
    13#32, 14#32, 15#32]) = ⟨0x725e2f24#32, 0x52694655#32, 0x9fd0a13c#32, 0xafad83d6#32⟩ := by decide +kernel

/-- Section 2.5. -/
theorem test_unpack_and_hex : unpack ⟨0x0a0b0c0d#32, 0xa0b0c0d0#32, 0x0000000f#32, 0xf0000000#32⟩ =
      [0x0d#8, 0x0c#8, 0x0b#8, 0x0a#8, 0xd0#8, 0xc0#8, 0xb0#8, 0xa0#8, 0x0f#8, 0#8, 0#8, 0#8, 0#8, 0#8, 0#8, 0xf0#8] ∧
    hexRender .upper (unpack ⟨0x01234567#32, 0x89abcdef#32, 0xfedcba98#32, 0x76543210#32⟩) =
      utf8Bytes "67452301EFCDAB8998BADCFE10325476" ∧
    hexRender .lower (unpack ⟨0x01234567#32, 0x89abcdef#32, 0xfedcba98#32, 0x76543210#32⟩) =
      utf8Bytes "67452301efcdab8998badcfe10325476" := by decide +kernel

/-- Section 1.2: the digest of the 14-byte message. -/
theorem test_digest : digest (utf8Bytes "message digest") = utf8Bytes "F96B697D7CB7938D525A2F31AAF161D0" := by
  decide +kernel

/-! ### The step micro-operations: the full trace of section 2.4

`trace` lists IV in the order A, D, C, B and then the value each of the 64 steps writes; `traceRegs i` is the state in
the row before step i. -/

def trace : List Word :=
  [0x67452301#32, 0x10325476#32, 0x98badcfe#32, 0xefcdab89#32]
    ++ [0xa5202774#32, 0xf59592dd#32, 0xe7f06b23#32, 0x1b163203#32]
    ++ [0x32033344#32, 0x2f35d494#32, 0xf5b158db#32, 0x9bc13ce9#32]
    ++ [0x3893b991#32, 0xfce4a312#32, 0xe1ef0576#32, 0x70768a29#32]
    ++ [0xf56c7cf1#32, 0x374943a7#32, 0x5aa53f75#32, 0xd6819c6a#32]
    ++ [0x1c7d7513#32, 0x7bd57a3a#32, 0xc095f13a#32, 0xbd782e17#32]
    ++ [0x3d1e3e6c#32, 0x68b7b3e3#32, 0xeb41643e#32, 0xe422531a#32]
    ++ [0x306ec122#32, 0xd28c77c2#32, 0xa3c663da#32, 0xa0572807#32]
    ++ [0x13707036#32, 0xae7813db#32, 0x1c31c384#32, 0xa2205f1f#32]
    ++ [0xdf63eaa1#32, 0xc3689f5b#32, 0x12f3e755#32, 0x004b6669#32]
    ++ [0x5f7a9b2e#32, 0xabc34e16#32, 0x91ca4cb7#32, 0xc5dc8c15#32]
    ++ [0x4497169d#32, 0x76fd93d4#32, 0xfd95f243#32, 0x0fe32453#32]
    ++ [0x3f55edfd#32, 0x22a31f54#32, 0x68d84ea2#32, 0xca7d2dbd#32]
    ++ [0x93aa2577#32, 0x1688dc85#32, 0xcd85b8cb#32, 0x561e0689#32]
    ++ [0x5625a114#32, 0x3450f42b#32, 0x392ad0d0#32, 0x1e77fa61#32]
    ++ [0x474a9c8c#32, 0xdfce00bc#32, 0x36594b14#32, 0x30130182#32]
    ++ [0x7246fad3#32, 0x6e10a476#32, 0xff4ea3eb#32, 0x14e45506#32]

def traceRegs (i : Nat) : Regs :=
  let at_ := fun k => trace.getD k 0#32
  ⟨at_ (4 * ((i + 3) / 4)), at_ (4 * (i / 4) + 3), at_ (4 * ((i + 1) / 4) + 2), at_ (4 * ((i + 2) / 4) + 1)⟩

/-- The step at index i, from the row before it, gives its row and changes nothing else. -/
def traceRow (i : Nat) (m : Instr) : Bool :=
  next? (exec m (st .absorb (traceRegs i) (blk [0x80#32]))) == some (st .absorb (traceRegs (i + 1)) (blk [0x80#32]))

theorem test_trace_ff : ∀ p ∈ ([
    (0, .ff0), (1, .ff1), (2, .ff2), (3, .ff3), (4, .ff4), (5, .ff5), (6, .ff6), (7, .ff7),
    (8, .ff8), (9, .ff9), (10, .ff10), (11, .ff11), (12, .ff12), (13, .ff13), (14, .ff14), (15, .ff15)] : List (Nat × Instr)),
    traceRow p.1 p.2 = true := by decide +kernel

theorem test_trace_gg : ∀ p ∈ ([
    (16, .gg16), (17, .gg17), (18, .gg18), (19, .gg19), (20, .gg20), (21, .gg21), (22, .gg22), (23, .gg23),
    (24, .gg24), (25, .gg25), (26, .gg26), (27, .gg27), (28, .gg28), (29, .gg29), (30, .gg30), (31, .gg31)] : List (Nat × Instr)),
    traceRow p.1 p.2 = true := by decide +kernel

theorem test_trace_hh : ∀ p ∈ ([
    (32, .hh32), (33, .hh33), (34, .hh34), (35, .hh35), (36, .hh36), (37, .hh37), (38, .hh38), (39, .hh39),
    (40, .hh40), (41, .hh41), (42, .hh42), (43, .hh43), (44, .hh44), (45, .hh45), (46, .hh46), (47, .hh47)] : List (Nat × Instr)),
    traceRow p.1 p.2 = true := by decide +kernel

theorem test_trace_ii : ∀ p ∈ ([
    (48, .ii48), (49, .ii49), (50, .ii50), (51, .ii51), (52, .ii52), (53, .ii53), (54, .ii54), (55, .ii55),
    (56, .ii56), (57, .ii57), (58, .ii58), (59, .ii59), (60, .ii60), (61, .ii61), (62, .ii62), (63, .ii63)] : List (Nat × Instr)),
    traceRow p.1 p.2 = true := by decide +kernel

/-- The last row of the trace, and the first rows as the table prints them. -/
theorem test_trace_rows : traceRegs 64 = ⟨0x7246fad3#32, 0x14e45506#32, 0xff4ea3eb#32, 0x6e10a476#32⟩ ∧
    traceRegs 1 = ⟨0xa5202774#32, 0xefcdab89#32, 0x98badcfe#32, 0x10325476#32⟩ ∧
    traceRegs 2 = ⟨0xa5202774#32, 0xefcdab89#32, 0x98badcfe#32, 0xf59592dd#32⟩ ∧
    traceRegs 3 = ⟨0xa5202774#32, 0xefcdab89#32, 0xe7f06b23#32, 0xf59592dd#32⟩ ∧
    traceRegs 4 = ⟨0xa5202774#32, 0x1b163203#32, 0xe7f06b23#32, 0xf59592dd#32⟩ := by decide +kernel

/-- Section 2.3: distinct roles and words, one step of each round. -/
theorem test_synthetic_steps :
    let s := st .absorb ⟨1#32, 2#32, 4#32, 8#32⟩ (blk [1#32, 2#32, 3#32, 4#32, 5#32, 6#32, 7#32, 8#32, 9#32, 10#32, 11#32,
      12#32, 13#32, 14#32, 15#32, 16#32])
    after State.regs (exec .ff3 s) = some ⟨1#32, 0xbd706f77#32, 4#32, 8#32⟩ ∧
    after State.regs (exec .gg17 s) = some ⟨1#32, 2#32, 4#32, 0x8166a381#32⟩ ∧
    after State.regs (exec .hh34 s) = some ⟨1#32, 2#32, 0x613d6da5#32, 8#32⟩ ∧
    after State.regs (exec .ii48 s) = some ⟨0x0a488e7f#32, 2#32, 4#32, 8#32⟩ := by decide +kernel

/-! ### The commands, one step each -/

theorem test_init : next? (exec .init (st .done ⟨1#32, 2#32, 3#32, 4#32⟩ (blk [5#32]) 6#29 true)) =
    some (st .absorb iv Block.zero 0#29 false) := by decide +kernel

theorem test_init_fault : next? (exec .init (st .fault ⟨1#32, 2#32, 3#32, 4#32⟩)) =
    some (st .fault ⟨1#32, 2#32, 3#32, 4#32⟩) := by decide +kernel

/-- Section 2.1: the fifth 0xFF goes to X[1] lane 0. -/
theorem test_pushb_lane : next? (exec (.pushb 0xFF#8) (st .absorb iv (blk [0xffffffff#32]) 4#29)) =
    some (st .absorb iv (blk [0xffffffff#32, 0x000000ff#32]) 5#29) := by decide +kernel

/-- Section 2.1: the wrap of NB. -/
theorem test_pushb_wrap : next? (exec (.pushb 0xAB#8) (st .absorb iv Block.zero 0x1FFFFFFF#29)) =
    some (st .absorb ⟨0x08f6506f#32, 0x303fb82f#32, 0x03b945e0#32, 0x2fccdd54#32⟩ Block.zero 0#29 true) := by
  decide +kernel

/-- Section 2.2, N = 3: one block. -/
theorem test_final_one_block : next? (exec .final (st .absorb iv (blk [0x00616161#32]) 3#29)) =
    some (st .done ⟨0xc7e5bc47#32, 0x489f584f#32, 0x7ed5db67#32, 0x08f8a99c#32⟩ Block.zero 3#29) := by decide +kernel

/-- Section 2.2, N = 56: two blocks. -/
theorem test_final_two_blocks :
    next? (exec .final (st .absorb iv (blk (List.replicate 14 0x61616161#32)) 56#29)) =
    some (st .done ⟨0xc78a0c3b#32, 0xb028f803#32, 0x70196c4c#32, 0x1872d106#32⟩ Block.zero 56#29) := by decide +kernel

/-- Section 2.5: the read path. -/
theorem test_rdw : after State.resp (exec (.rdw 3#2) (st .done ⟨0x01234567#32, 0x89abcdef#32, 0xfedcba98#32, 0x76543210#32⟩)) =
    some [0x76543210#32] := by decide +kernel

theorem test_rdw_idle : after (fun t => (t.resp, status t)) (exec (.rdw 0#2) (st .idle)) = some ([0#32], 0x13#32) := by
  decide +kernel

theorem test_rdb : after State.resp (exec (.rdb 4#4) (st .done ⟨0x01234567#32, 0x89abcdef#32, 0xfedcba98#32, 0x76543210#32⟩)) =
    some [0xef#32] := by decide +kernel

theorem test_rdb_absorb : after (fun t => (t.resp, status t)) (exec (.rdb 0#4) (st .absorb)) = some ([0#32], 0x13#32) := by
  decide +kernel

theorem test_rdh : after State.resp (exec (.rdh 8#5) (st .done ⟨0x01234567#32, 0x89abcdef#32, 0xfedcba98#32, 0x76543210#32⟩)) =
    some [0x45#32] := by decide +kernel

theorem test_rdh_low_nibble :
    after State.resp (exec (.rdh 9#5) (st .done ⟨0x01234567#32, 0x89abcdef#32, 0xfedcba98#32, 0x76543210#32⟩)) =
    some [0x46#32] := by decide +kernel

theorem test_rds : after State.resp (exec .rds (st .done iv Block.zero 0#29 true)) = some [0x06#32] := by decide +kernel

theorem test_rds_fault : after State.resp (exec .rds (st .fault)) = some [0x13#32] := by decide +kernel

/-! ### Words at the port, the reset event, and the placing of a word -/

/-- V15: an illegal read-class word in DONE is ILLEGAL_CMD with one response of 0. -/
theorem test_illegal_outranks_phase :
    after (fun t => (t.resp, status t)) (step (fed 0x4004#16 (st .done))) = some ([0#32], 0x0B#32) := by decide +kernel

/-- V11: an illegal word of another class gives no response. -/
theorem test_illegal_silent :
    after (fun t => (t.resp, status t)) (step (fed 0x2161#16 (st .absorb))) = some ([], 0x0B#32) := by decide +kernel

/-- V17: the first fault wins. -/
theorem test_first_fault_wins :
    after (fun t => (t.resp, status t)) (step (fed 0x0000#16 (st .fault))) = some ([], 0x13#32) := by decide +kernel

/-- The reset event of R133 from FAULT. -/
theorem test_reset_event : after (fun t => (status t, t.resp, t.port))
    (step { st .fault with port := [.reset, .cmd 0x7000#16], resp := [1#32] }) =
    some (0#32, [], [.cmd 0x7000#16]) := by decide +kernel

/-- V1: RDS as the first command after reset. -/
theorem test_first_command_after_reset :
    after State.resp (step (State.reset.withFetchWord 16 0x7000)) = some [0#32] := by decide +kernel

/-- V3: PUSHB before INIT. -/
theorem test_pushb_after_reset :
    after status (step (State.reset.withFetchWord 16 0x2061)) = some 0x13#32 := by decide +kernel

/-- P7: the first micro-operation of the block of P1, placed at the sequencer. -/
theorem test_placed_step :
    after (fun t => (t.regs, t.engine.map BlockOp.index)) (step ((st .absorb iv (blk [0x80#32])).withFetchWord 8 0)) =
    some (⟨0xa5202774#32, 0xefcdab89#32, 0x98badcfe#32, 0x10325476#32⟩, some 1#6) := by decide +kernel

/-- Section 2.4, chaining after step 63. -/
theorem test_chaining :
    after (fun t => (t.regs, t.engine)) (step { st .absorb (traceRegs 63) (blk [0x80#32]) with
      engine := some ⟨63#6, iv⟩ }) =
    some (⟨0xd98c1dd4#32, 0x04b2008f#32, 0x980980e9#32, 0x7e42f8ec#32⟩, none) := by decide +kernel

/-! ### Witnesses: concrete inputs that meet the hypotheses of each obligation, one for each clause -/

theorem inv_st_absorb : Inv (st .absorb) := ⟨by decide +kernel, by decide +kernel, by decide +kernel⟩

/-- A state of a run: two bytes pushed. -/
theorem inv_st_two_bytes : Inv (st .absorb iv (blk [0x6261#32]) 2#29) :=
  ⟨by decide +kernel, by decide +kernel, by decide +kernel⟩

theorem inv_st_fault : Inv (st .fault) := ⟨by decide +kernel, by decide +kernel, by decide +kernel⟩

theorem inv_st_idle : Inv (st .idle ⟨1#32, 2#32, 3#32, 4#32⟩ (blk [5#32])) :=
  ⟨by decide +kernel, by decide +kernel, by decide +kernel⟩

theorem witness_EncodeOfDecodeIsIdentity :
    decode (.cmd 0x20FF#16) = .instr (.pushb 0xFF#8) ∧ decode (.step 63#6) = .instr .ii63 := by decide +kernel

theorem witness_DecodeIsTheTableOfCommands :
    0x20FF#16 &&& 0xFF00#16 = 0x2000#16 ∧ 0x4003#16 &&& 0xFFFC#16 = 0x4000#16 ∧
    0x500F#16 &&& 0xFFF0#16 = 0x5000#16 ∧ 0x601F#16 &&& 0xFFE0#16 = 0x6000#16 ∧
    0x7001#16 ∉ commandWords ∧ 0x601F#16 ∈ commandWords := by decide +kernel

theorem witness_IllegalWordsAreUnassignedOrOverlong :
    let s := fed 0x4004#16 (st .done)
    s.engine = none ∧ s.phase ≠ .fault ∧ s.port = .cmd 0x4004#16 :: [] ∧
    decodeCommand 0x4004#16 = .illegal .mustBeZeroBitSet := by decide +kernel

theorem witness_AssembledLinesDecode :
    255 ≤ 255 ∧ 3 ≤ 3 ∧ 15 ≤ 15 ∧ 31 ≤ 31 ∧ 0xFFFF ≤ 0xFFFF ∧ 255 < 256 ∧ 3 < 4 ∧ 15 < 16 ∧ 31 < 32 ∧
    0xFFFF < 0x10000 ∧ (Char.ofNat 127).toNat ≤ 127 := by decide

theorem witness_StepRunsTheDecodedCommand :
    let s := fed 0x20FF#16 (st .absorb)
    s.engine = none ∧ s.port = .cmd 0x20FF#16 :: [] ∧ decodeCommand 0x20FF#16 = .instr (.pushb 0xFF#8) := by
  decide +kernel

/-- Index 63, the last one, and an index before it. -/
theorem witness_StepRunsTheSequencedMicroOperation :
    let s := { st .absorb with engine := some ⟨63#6, iv⟩ }
    let u := { st .absorb with engine := some ⟨0#6, iv⟩ }
    (s.engine = some ⟨63#6, iv⟩ ∧ ∃ t, exec (decodeStep 63#6) s = .next t) ∧
    (u.engine = some ⟨0#6, iv⟩ ∧ ∃ t, exec (decodeStep 0#6) u = .next t) :=
  ⟨⟨rfl, _, exec_decodeStep _ _⟩, rfl, _, exec_decodeStep _ _⟩

theorem witness_StepIsExecAsWritten :
    let s := fed 0x7000#16 (st .fault)
    s.engine = none ∧ s.port = .cmd 0x7000#16 :: [] := by decide +kernel

/-- One state for each phase the permission table has a column for outside FAULT. -/
theorem witness_PermissionTable :
    (st .idle).phase = .idle ∧ (st .absorb).phase = .absorb ∧ (st .done).phase = .done := by decide +kernel

theorem witness_PhaseTransitions :
    let s := fed 0x3000#16 (st .absorb)
    s.engine = none ∧ s.port = .cmd 0x3000#16 :: [] ∧ ∃ t, step s = .next t := ⟨rfl, rfl, step_next _⟩

/-- A read-class word and one that is not. -/
theorem witness_OneResponsePerReadClassWord :
    let s := fed 0x7FFF#16 (st .fault)
    let u := fed 0x8000#16 (st .fault)
    (s.engine = none ∧ s.port = .cmd 0x7FFF#16 :: [] ∧ readClass 0x7FFF#16 = true) ∧
    (u.engine = none ∧ u.port = .cmd 0x8000#16 :: [] ∧ readClass 0x8000#16 = false) := by decide +kernel

theorem witness_InitBeginsADigest :
    (st .idle).phase = .idle ∧ (st .done).phase = .done ∧ (st .fault).phase = .fault ∧
    (∃ t, exec .init (st .done) = .next t) ∧ ∃ t, exec .init State.reset = .next t :=
  ⟨rfl, rfl, rfl, exec_next _ _, exec_next _ _⟩

theorem witness_RdsRespondsStatus :
    opcodeOf 0x7001#16 = 7#4 ∧ 0x7001#16 ≠ 0x7000#16 ∧
    ((st .done iv Block.zero 0#29 true).phase = .done ∧ (st .done iv Block.zero 0#29 true).lovf = true ∧
      (st .done iv Block.zero 0#29 true).ecode = .none) ∧
    ({ st .fault with lovf := true, ecode := .illegalCmd } : State).phase = .fault ∧
    (st .idle).phase ≠ .fault ∧ (st .idle).ecode = .none ∧ ∃ t, exec .init (st .idle) = .next t :=
  ⟨by decide, by decide, ⟨rfl, rfl, rfl⟩, rfl, by decide, rfl, exec_next _ _⟩

/-- The eight states whose STATUS values R63 lists: each meets the hypotheses of its clause. -/
theorem witness_RdsRespondsStatus_values :
    status (st .idle) = 0x00#32 ∧ status (st .absorb) = 0x01#32 ∧ status (st .done) = 0x02#32 ∧
    status (st .done iv Block.zero 0#29 true) = 0x06#32 ∧
    status { st .fault with ecode := .illegalCmd } = 0x0B#32 ∧
    status { st .fault with ecode := .illegalCmd, lovf := true } = 0x0F#32 ∧
    status (st .fault) = 0x13#32 ∧ status (st .fault iv Block.zero 0#29 true) = 0x17#32 := by decide +kernel

theorem witness_StatusIsAViewOfPhaseLovfEcode : Inv (st .fault) ∧ Inv (st .absorb) := ⟨inv_st_fault, inv_st_absorb⟩

/-- A byte address below 63, address 63, each phase, a zero byte, an overlong word, and the three commands in a row. -/
theorem witness_PushbAppendsOneByte :
    ((st .absorb iv Block.zero 62#29).phase = .absorb ∧ (st .absorb iv Block.zero 62#29).nb.toNat % 64 ≠ 63) ∧
    ((st .absorb iv Block.zero 0x1FFFFFFF#29).phase = .absorb ∧
      (st .absorb iv Block.zero 0x1FFFFFFF#29).nb.toNat % 64 = 63) ∧
    (st .idle).phase = .idle ∧ (st .done).phase = .done ∧ (st .fault).phase = .fault ∧
    (opcodeOf 0x2100#16 = 2#4 ∧ (0x2100#16).extractLsb' 8 4 ≠ 0#4) := by decide +kernel

theorem witness_PushbAppendsOneByte_run :
    (st .done).phase ≠ .fault ∧ ∃ t u v, exec .init (st .done) = .next t ∧ exec (.pushb 0x61#8) t = .next u ∧
      exec (.pushb 0x62#8) u = .next v := by
  obtain ⟨t, ht⟩ := exec_next .init (st .done)
  obtain ⟨u, hu⟩ := exec_next (.pushb 0x61#8) t
  obtain ⟨v, hv⟩ := exec_next (.pushb 0x62#8) u
  exact ⟨by decide, t, u, v, ht, hu, hv⟩

/-- Address 62 and address 63, on states that meet the invariant. -/
theorem witness_PushbFrame :
    let s := st .absorb iv Block.zero 62#29
    let u := st .absorb iv Block.zero 63#29
    (s.phase = .absorb ∧ bufAddress s.nb ≠ 63#6 ∧ (0#6 : BitVec 6) ≠ bufAddress s.nb ∧ Inv s ∧
      ∃ t, exec (.pushb 0x61#8) s = .next t) ∧
    (u.phase = .absorb ∧ bufAddress u.nb = 63#6 ∧ ∃ t, exec (.pushb 0x61#8) u = .next t) :=
  ⟨⟨rfl, by decide +kernel, by decide +kernel, ⟨by decide +kernel, by decide +kernel, by decide +kernel⟩, exec_next _ _⟩,
    rfl, by decide +kernel, exec_next _ _⟩

/-- Address 55, the last with room for the length, address 56, the first without, and the other phases. -/
theorem witness_FinalPadsAndCompresses :
    ((st .absorb iv Block.zero 55#29).phase = .absorb ∧ (st .absorb iv Block.zero 55#29).nb.toNat % 64 < 56) ∧
    ((st .absorb iv Block.zero 56#29).phase = .absorb ∧ 56 ≤ (st .absorb iv Block.zero 56#29).nb.toNat % 64) ∧
    (st .idle).phase = .idle ∧ (st .done).phase = .done ∧ (st .fault).phase = .fault ∧
    (opcodeOf 0x3800#16 = 3#4 ∧ 0x3800#16 ≠ 0x3000#16) := by decide +kernel

theorem witness_FinalPadsAndCompresses_run :
    (st .idle).phase ≠ .fault ∧ ∃ t u v w y, exec .init (st .idle) = .next t ∧ exec (.pushb 0x61#8) t = .next u ∧
      exec (.pushb 0x62#8) u = .next v ∧ exec (.pushb 0x63#8) v = .next w ∧ exec .final w = .next y := by
  obtain ⟨t, ht⟩ := exec_next .init (st .idle)
  obtain ⟨u, hu⟩ := exec_next (.pushb 0x61#8) t
  obtain ⟨v, hv⟩ := exec_next (.pushb 0x62#8) u
  obtain ⟨w, hw⟩ := exec_next (.pushb 0x63#8) v
  obtain ⟨y, hy⟩ := exec_next .final w
  exact ⟨by decide, t, u, v, w, y, ht, hu, hv, hw, hy⟩

/-- The hypotheses of the last clause of the three read statements: INIT, then FINAL. -/
theorem witness_init_final :
    (st .idle).phase ≠ .fault ∧ ∃ t u, exec .init (st .idle) = .next t ∧ exec .final t = .next u := by
  obtain ⟨t, ht⟩ := exec_next .init (st .idle)
  obtain ⟨u, hu⟩ := exec_next .final t
  exact ⟨by decide, t, u, ht, hu⟩

theorem witness_RdwRespondsARegister :
    (st .absorb).phase = .absorb ∧ (st .done).phase = .done ∧ (st .idle).phase = .idle ∧ (st .fault).phase = .fault ∧
    (opcodeOf 0x4004#16 = 4#4 ∧ (0x4004#16).extractLsb' 2 10 ≠ 0#10) ∧
    ∃ t u, exec .init (st .idle) = .next t ∧ exec .final t = .next u :=
  ⟨rfl, rfl, rfl, rfl, by decide, witness_init_final.2⟩

theorem witness_RdbRespondsADigestByte :
    (st .done).phase = .done ∧ (st .idle).phase = .idle ∧ (st .absorb).phase = .absorb ∧ (st .fault).phase = .fault ∧
    (opcodeOf 0x5010#16 = 5#4 ∧ (0x5010#16).extractLsb' 4 8 ≠ 0#8) ∧
    ∃ t u, exec .init (st .idle) = .next t ∧ exec .final t = .next u :=
  ⟨rfl, rfl, rfl, rfl, by decide, witness_init_final.2⟩

theorem witness_RdhRespondsAHexDigit :
    (st .done).phase = .done ∧ (st .idle).phase = .idle ∧ (st .absorb).phase = .absorb ∧ (st .fault).phase = .fault ∧
    (opcodeOf 0x6020#16 = 6#4 ∧ (0x6020#16).extractLsb' 5 7 ≠ 0#7) ∧
    ∃ t u, exec .init (st .idle) = .next t ∧ exec .final t = .next u :=
  ⟨rfl, rfl, rfl, rfl, by decide, witness_init_final.2⟩

theorem witness_ReadsHaveNoSideEffect :
    permitted (.rdw 3#2) (st .absorb).phase = true ∧ permitted (.rdb 15#4) (st .done).phase = true ∧
    permitted (.rdh 31#5) (st .done).phase = true ∧ permitted .rds (st .fault).phase = true := by decide +kernel

theorem witness_NothingStopsTheCore_same_phase :
    let s := fed 0x5000#16 (st .absorb ⟨1#32, 2#32, 3#32, 4#32⟩ (blk [5#32]) 6#29 false)
    let u := fed 0x5000#16 (st .absorb iv Block.zero 7#29 true)
    (s.engine = none ∧ u.engine = none ∧ s.phase = u.phase ∧ s.ecode = u.ecode ∧ s.port = .cmd 0x5000#16 :: [] ∧
      u.port = .cmd 0x5000#16 :: []) ∧ (∃ t, step s = .next t) ∧ ∃ t, step u = .next t :=
  ⟨by decide +kernel, step_next _, step_next _⟩

/-- One index for each written register. -/
theorem witness_StepFrame : ∀ i ∈ [0#6, 17#6, 34#6, 63#6], ∃ t, exec (decodeStep i) (st .absorb) = .next t :=
  fun i _ => ⟨_, exec_decodeStep i _⟩

theorem witness_RegisterCyclingAndRotatingForm : 16 ≤ 16 ∧ 0 ≤ 16 := by decide

theorem witness_RotationMovesEveryBit : 1 ≤ 31 ∧ 31 ≤ 31 ∧ 31 < 32 ∧ 1 ≤ 1 ∧ 1 ≤ 31 ∧ 0 < 32 := by decide

theorem witness_RotationAndWordSchedules : tableK (3#2 ++ 15#4) = 9#4 := by decide +kernel

theorem witness_SequencerRefinesCompress :
    let s := { st .absorb with engine := some ⟨0#6, iv⟩ }
    s.engine = some ⟨0#6, s.regs⟩ ∧ 63 ≤ 63 := by decide +kernel

theorem witness_NoCommandLeavesABlockInProgress :
    (fed 0x3000#16 (st .absorb)).engine = none ∧ ∃ t, step (fed 0x3000#16 (st .absorb)) = .next t :=
  ⟨rfl, step_next _⟩

theorem witness_BlockBufferBytesAndWords : (63#6 : BitVec 6) ≠ 0#6 ∧ (15#4 : BitVec 4) ≠ 0#4 := by decide +kernel

/-- The last byte address of a buffer whose other bytes are not all zero. -/
theorem witness_OrStoreAgreesWithMemWrite : memRead1 (blk [0x6261#32]) 63#6 = 0#8 := by decide +kernel

/-- The first and the last byte position of a message of five bytes. -/
theorem witness_PackIsLittleEndian :
    0 < 4 * (pack [1#8, 2#8, 3#8, 4#8, 5#8]).length ∧ 7 < 4 * (pack [1#8, 2#8, 3#8, 4#8, 5#8]).length := by decide +kernel

theorem witness_PaddedMessage : (0 : Nat) ≠ ((((8 * [0x61#8].length + 64) >>> 9) <<< 4) + 14) := by decide +kernel

theorem witness_UnpackInvertsPack : (List.replicate 16 0x10#8).length = 16 := by decide

theorem witness_HexRendersHighNibbleFirst : 15 < (unpack iv).length := by decide +kernel

theorem witness_DigestIsThirtyTwoUpperCaseHexDigits :
    0x44#8 ∈ digest [] ∧ (st .done).phase = .done ∧ ∃ t, exec (.rdh 31#5) (st .done) = .next t :=
  ⟨by decide +kernel, rfl, exec_next _ _⟩

/-- A word that raises each cause, and one that raises none. -/
theorem witness_FaultCauses : ∀ w ∈ [0xFFFF#16, 0x5000#16, 0x1000#16],
    Inv (fed w (st .absorb)) ∧ (fed w (st .absorb)).engine = none ∧ (fed w (st .absorb)).phase ≠ .fault ∧
    (fed w (st .absorb)).port = .cmd w :: [] ∧ ∃ t, step (fed w (st .absorb)) = .next t :=
  fun w _ => ⟨⟨inv_st_absorb.fault_iff, inv_st_absorb.tail_clear, inv_st_absorb.done_clear⟩, rfl,
    (by decide : Phase.absorb ≠ .fault), rfl, step_next _⟩

/-- A read-class word out of phase, and a word that is illegal and not of the read class. -/
theorem witness_FaultEntryIsPrecise : ∀ w ∈ [0x500F#16, 0x2100#16],
    (fed w (st .absorb)).engine = none ∧ (fed w (st .absorb)).phase ≠ .fault ∧
    (fed w (st .absorb)).port = .cmd w :: [] ∧
    ∃ t, step (fed w (st .absorb)) = .next t ∧ t.phase = .fault := by
  intro w h
  simp only [List.mem_cons, List.not_mem_nil, or_false] at h
  rcases h with rfl | rfl
  · exact ⟨rfl, by decide +kernel, rfl, _, rfl, rfl⟩
  · exact ⟨rfl, by decide +kernel, rfl, _, rfl, rfl⟩

theorem witness_FaultLocksTheCore : ∀ w ∈ [0x4000#16, 0x7001#16, 0x1000#16, 0x7000#16],
    (fed w (st .fault)).phase = .fault ∧ (fed w (st .fault)).engine = none ∧
    (fed w (st .fault)).port = .cmd w :: [] := fun _ _ => ⟨rfl, rfl, rfl⟩

theorem witness_FaultLocksTheCore_classes :
    (0x7001#16 ≠ 0x7000#16 ∧ readClass 0x7001#16 = true) ∧ (0x1000#16 ≠ 0x7000#16 ∧ readClass 0x1000#16 = false) := by
  decide

/-- A command in FAULT, and the reset event in FAULT. -/
theorem witness_OnlyResetLeavesFault :
    let s := fed 0x1000#16 (st .fault)
    let u := { st .fault with port := [.reset] }
    (s.phase = .fault ∧ s.engine = none ∧ s.port.head? ≠ some .reset ∧ ∃ t, step s = .next t) ∧
    (u.phase = .fault ∧ u.engine = none ∧ u.port = .reset :: []) :=
  ⟨⟨rfl, rfl, by decide, step_next _⟩, rfl, rfl, rfl⟩

theorem witness_NothingStopsTheCore :
    (st .absorb iv Block.zero 0x1FFFFFFF#29 true).phase = .absorb ∧ (st .absorb).phase = .absorb := by decide +kernel

theorem witness_ResetEventSetsTheControlState :
    let s := { st .fault with port := [.reset, .cmd 0x7000#16], resp := [0#32] }
    s.engine = none ∧ s.port = .reset :: [.cmd 0x7000#16] := by decide +kernel

theorem witness_PortsWithoutACommand :
    ((st .done).engine = none ∧ (st .done).port = []) ∧
    (let s := { st .done with port := [PortEvent.collect], resp := [1#32, 2#32] }
     s.engine = none ∧ s.port = .collect :: [] ∧ s.resp = 1#32 :: [2#32]) ∧
    (let s := { st .done with port := [PortEvent.collect] }
     s.engine = none ∧ s.port = .collect :: [] ∧ s.resp = []) := by decide +kernel

/-- A state of a run with two bytes pushed, and a faulted one: both meet the invariant and step. -/
theorem witness_EveryStepKeepsTheInvariant :
    (Inv (st .absorb iv (blk [0x6261#32]) 2#29) ∧ ∃ t, step (st .absorb iv (blk [0x6261#32]) 2#29) = .next t) ∧
    (Inv (st .fault) ∧ ∃ t, step (st .fault) = .next t) :=
  ⟨⟨inv_st_two_bytes, step_next _⟩, inv_st_fault, step_next _⟩

/-- INIT changes A to D, X and NB and clears LOVF. -/
theorem witness_WritersOfTheDatapath :
    let s := fed 0x1000#16 (st .done ⟨1#32, 2#32, 3#32, 4#32⟩ (blk [5#32]) 6#29 true)
    s.engine = none ∧ s.port = .cmd 0x1000#16 :: [] ∧ s.lovf = true ∧
    ∃ t, step s = .next t ∧ t.regs ≠ s.regs ∧ t.x ≠ s.x ∧ t.nb ≠ s.nb ∧ t.lovf = false :=
  ⟨rfl, rfl, rfl, _, rfl, by decide +kernel, by decide +kernel, by decide +kernel, rfl⟩

/-- The PUSHB that makes NB wrap sets LOVF. -/
theorem witness_WritersOfTheDatapath_lovf :
    (fed 0x2000#16 (st .absorb iv Block.zero 0x1FFFFFFF#29)).lovf = false ∧
    after State.lovf (step (fed 0x2000#16 (st .absorb iv Block.zero 0x1FFFFFFF#29))) = some true := by decide +kernel

/-- Two contexts that differ in everything INIT discards. -/
theorem witness_InitErasesTheOldContext :
    let s := st .idle ⟨1#32, 2#32, 3#32, 4#32⟩ (blk [5#32]) 6#29 false
    let u := st .done iv Block.zero 7#29 true
    s.phase ≠ .fault ∧ u.phase ≠ .fault ∧ s.ecode = u.ecode ∧ s.engine = u.engine ∧ s.port = u.port ∧
    s.resp = u.resp ∧ s.draws = u.draws ∧ s ≠ u := by decide +kernel

theorem witness_FaultHidesTheDatapath :
    let s := fed 0x4000#16 (st .fault ⟨1#32, 2#32, 3#32, 4#32⟩)
    let u := fed 0x4000#16 (st .fault ⟨5#32, 6#32, 7#32, 8#32⟩)
    (s.phase = .fault ∧ u.phase = .fault ∧ s.engine = none ∧ u.engine = none ∧ s.ecode = u.ecode ∧ s.lovf = u.lovf ∧
      s.resp = u.resp ∧ s.port = .cmd 0x4000#16 :: [] ∧ u.port = .cmd 0x4000#16 :: [] ∧ s ≠ u) ∧
    (∃ t, step s = .next t) ∧ ∃ t, step u = .next t :=
  ⟨by decide +kernel, step_next _, step_next _⟩

theorem witness_BufferInvariantOfAMessage :
    let s := { st .idle with port := cmds (0x1000#16 :: [0x61#8, 0x62#8].map pushWord) ++ [PortEvent.collect] }
    s.engine = none ∧ s.phase ≠ .fault ∧
    s.port = cmds (0x1000#16 :: [0x61#8, 0x62#8].map pushWord) ++ [PortEvent.collect] :=
  ⟨rfl, by decide, rfl⟩

theorem witness_WholeMessageLaw :
    let s := { st .idle with port := cmds (messageWords [0x61#8, 0x62#8]) ++ [PortEvent.collect] }
    Inv s ∧ s.engine = none ∧ s.phase ≠ .fault ∧ s.port = cmds (messageWords [0x61#8, 0x62#8]) ++ [PortEvent.collect] :=
  ⟨⟨by decide +kernel, by decide +kernel, by decide +kernel⟩, rfl, by decide, rfl⟩

theorem witness_DigestPseudoInstruction :
    let ws := 0x1000#16 :: pushsWords "a" ++ 0x3000#16 :: rdhexWords
    let s := { st .idle with port := cmds ws ++ [] }
    Inv s ∧ s.engine = none ∧ s.phase ≠ .fault ∧ assemble (.digest "a") = some ws ∧ s.port = cmds ws ++ [] :=
  ⟨⟨by decide +kernel, by decide +kernel, by decide +kernel⟩, rfl, by decide +kernel, by decide +kernel, rfl⟩

end Sys2Proof.Tests
end

section
/-! The fields of STATUS (10_state.md, R20): the word is ECODE, LOVF and PHASE side by side under 27 zeros, so each field
is read back by its place in that concatenation. -/

namespace Sys2Proof.Machine

/-- R20 as a layout: the shifts and ORs of STATUS set its three fields side by side. -/
theorem status_eq_append (s : State) :
    status s = 0#27 ++ (s.ecode.code ++ (BitVec.ofBool s.lovf ++ s.phase.code)) := by
  unfold status
  generalize s.ecode.code = e, s.lovf = l, s.phase.code = p
  revert e l p
  decide

theorem status_phaseField (s : State) : (status s).extractLsb' 0 2 = s.phase.code := by
  rw [status_eq_append, BitVec.extractLsb'_append_eq_of_add_le (by decide),
    BitVec.extractLsb'_append_eq_of_add_le (by decide), BitVec.extractLsb'_append_eq_right]

theorem status_lovfBit (s : State) : (status s).getLsbD 2 = s.lovf := by
  simp only [status_eq_append, BitVec.getLsbD_append]
  simp

theorem status_ecodeField (s : State) : (status s).extractLsb' 3 2 = s.ecode.code := by
  rw [status_eq_append, BitVec.extractLsb'_append_eq_of_add_le (by decide)]
  exact BitVec.extractLsb'_append_eq_left

theorem status_upperBits (s : State) : (status s).extractLsb' 5 27 = 0#27 := by
  rw [status_eq_append]
  exact BitVec.extractLsb'_append_eq_left

theorem phase_code_eq_three_iff (p : Phase) : p.code = 3#2 ↔ p = .fault := by
  cases p <;> decide

theorem cause_code_eq_zero_iff (c : Cause) : c.code = 0#2 ↔ c = .none := by
  cases c <;> decide

/-- The legal combinations of R20: the invariant's link of PHASE and ECODE, read off STATUS. -/
theorem status_fault_iff {s : State} (hs : Inv s) :
    (status s).extractLsb' 0 2 = 3#2 ↔ (status s).extractLsb' 3 2 ≠ 0#2 := by
  rw [status_phaseField, status_ecodeField, phase_code_eq_three_iff, Ne, cause_code_eq_zero_iff]
  exact hs.fault_iff

/-- STATUS reads 0 at reset, where PHASE is IDLE, LOVF clear and ECODE 0 (R25). -/
theorem status_reset : status State.reset = 0#32 := rfl

/-- Settles O15: the fields are read off the layout of STATUS, and the legal combinations are the invariant's first
clause. -/
theorem statusIsAViewOfPhaseLovfEcode : Obligations.StatusIsAViewOfPhaseLovfEcode :=
  ⟨fun s => ⟨status_phaseField s, status_lovfBit s, status_ecodeField s, status_upperBits s⟩,
    ⟨rfl, rfl, rfl, rfl⟩, ⟨rfl, rfl, rfl⟩, fun _ => status_fault_iff, status_reset⟩

end Sys2Proof.Machine
end

section
/-! The block buffer by bytes (20_memory.md, R31 and R33): a byte is a bit field of its word, and a byte write replaces
that bit field and no other bit. -/

namespace Sys2Proof.Machine

/-- R31: the byte at an address is its lane's bit field. -/
theorem memRead1_eq_extractLsb' (x : Block) (a : BitVec 6) :
    memRead1 x a = (x.word (wordIndex a)).extractLsb' (laneShift a) 8 :=
  BitVec.setWidth_ushiftRight_eq_extractLsb

theorem memRead1_getLsbD (x : Block) (a : BitVec 6) {i : Nat} (hi : i < 8) :
    (memRead1 x a).getLsbD i = (x.word (wordIndex a)).getLsbD (laneShift a + i) := by
  simp [memRead1_eq_extractLsb', hi]

/-- The word a byte write leaves: the byte's bits in its lane, the old bits elsewhere. -/
theorem memWrite1_word_getLsbD (x : Block) (a : BitVec 6) (v : Byte) {i : Nat} (hi : i < 32) :
    ((memWrite1 x a v).word (wordIndex a)).getLsbD i =
      if laneShift a ≤ i ∧ i < laneShift a + 8 then v.getLsbD (i - laneShift a)
      else (x.word (wordIndex a)).getLsbD i := by
  have byteMask : (0xFF#32).getLsbD (i - laneShift a) = decide (i - laneShift a < 8) := by
    have h : ∀ j : Fin 32, (0xFF#32).getLsbD j = decide (j.val < 8) := by decide
    exact h ⟨i - laneShift a, by omega⟩
  simp only [memWrite1, Block.word_setWord, if_pos, BitVec.getLsbD_or, BitVec.getLsbD_and, BitVec.getLsbD_not,
    BitVec.getLsbD_shiftLeft, BitVec.getLsbD_setWidth, byteMask]
  by_cases hlo : i < laneShift a
  · simp [hi, hlo, Nat.not_le.2 hlo]
  · by_cases hhi : i - laneShift a < 8
    · have hin : laneShift a ≤ i ∧ i < laneShift a + 8 := by omega
      have h32 : i - laneShift a < 32 := by omega
      simp [hi, hlo, hhi, hin, h32]
    · have hout : ¬(laneShift a ≤ i ∧ i < laneShift a + 8) := by omega
      have hv : v.getLsbD (i - laneShift a) = false := BitVec.getLsbD_of_ge _ _ (by omega)
      simp [hi, hlo, hhi, hout, hv]

theorem memWrite1_word_of_ne (x : Block) {a : BitVec 6} {k : BitVec 4} (v : Byte) (h : wordIndex a ≠ k) :
    (memWrite1 x a v).word k = x.word k := by
  rw [memWrite1, Block.word_setWord, if_neg h]

/-- Two byte addresses in one word have lanes that do not overlap. -/
theorem laneShift_disjoint {a b : BitVec 6} (hw : wordIndex a = wordIndex b) (h : b ≠ a) :
    laneShift b + 8 ≤ laneShift a ∨ laneShift a + 8 ≤ laneShift b := by
  have hl : laneShift b ≠ laneShift a := fun e => h (address_ext hw.symm e)
  rw [laneShift_eq, laneShift_eq] at hl ⊢
  omega

theorem memRead1_memWrite1_same (x : Block) (a : BitVec 6) (v : Byte) : memRead1 (memWrite1 x a v) a = v := by
  apply BitVec.eq_of_getLsbD_eq
  intro i hi
  have h32 : laneShift a + i < 32 := by have := laneShift_cases a; omega
  rw [memRead1_getLsbD _ _ hi, memWrite1_word_getLsbD _ _ _ h32, if_pos (by omega), Nat.add_sub_cancel_left]

theorem memRead1_memWrite1_other (x : Block) {a b : BitVec 6} (v : Byte) (h : b ≠ a) :
    memRead1 (memWrite1 x a v) b = memRead1 x b := by
  by_cases hw : wordIndex a = wordIndex b
  · apply BitVec.eq_of_getLsbD_eq
    intro i hi
    have h32 : laneShift b + i < 32 := by have := laneShift_cases b; omega
    have hout := laneShift_disjoint hw h
    rw [memRead1_getLsbD _ _ hi, memRead1_getLsbD _ _ hi, ← hw, memWrite1_word_getLsbD _ _ _ h32, if_neg (by omega)]
  · rw [memRead1, memWrite1_word_of_ne x v hw, memRead1]

@[simp] theorem memRead4_memWrite4_same (x : Block) (k : BitVec 4) (v : Word) : memRead4 (memWrite4 x k v) k = v := by
  rw [memRead4, memWrite4, Block.word_setWord, if_pos rfl]

theorem memRead4_memWrite4_other (x : Block) {k j : BitVec 4} (v : Word) (h : j ≠ k) :
    memRead4 (memWrite4 x k v) j = memRead4 x j := by
  rw [memRead4, memWrite4, Block.word_setWord, if_neg h.symm, memRead4]

@[simp] theorem wordIndex_append (k : BitVec 4) (c : BitVec 2) : wordIndex (k ++ c) = k :=
  BitVec.extractLsb'_append_eq_left

@[simp] theorem laneShift_append (k : BitVec 4) (c : BitVec 2) : laneShift (k ++ c) = 8 * c.toNat := by
  rw [laneShift, BitVec.extractLsb'_append_eq_right]

theorem memRead1_append (x : Block) (k : BitVec 4) (c : BitVec 2) :
    memRead1 x (k ++ c) = (x.word k).extractLsb' (8 * c.toNat) 8 := by
  rw [memRead1_eq_extractLsb', wordIndex_append, laneShift_append]

/-- A word is its four bit fields of eight bits, highest first: adjacent fields join to one. -/
theorem word_eq_append_lanes (w : Word) :
    w = w.extractLsb' 24 8 ++ w.extractLsb' 16 8 ++ w.extractLsb' 8 8 ++ w.extractLsb' 0 8 := by
  rw [BitVec.extractLsb'_append_extractLsb'_eq_extractLsb' (by rfl),
    BitVec.extractLsb'_append_extractLsb'_eq_extractLsb' (by rfl),
    BitVec.extractLsb'_append_extractLsb'_eq_extractLsb' (by rfl), BitVec.extractLsb'_eq_self]

/-- R31 and R33: a word read is the four byte reads, the lowest address in the lowest bits. -/
theorem memRead4_eq_append_memRead1 (x : Block) (k : BitVec 4) :
    memRead4 x k =
      memRead1 x (k ++ 3#2) ++ memRead1 x (k ++ 2#2) ++ memRead1 x (k ++ 1#2) ++ memRead1 x (k ++ 0#2) := by
  simp only [memRead1_append]
  exact word_eq_append_lanes (x.word k)

/-- Settles O35: the lane rule of a byte address, the read and write laws, and the word as its four lanes. -/
theorem blockBufferBytesAndWords : Obligations.BlockBufferBytesAndWords := by
  refine ⟨fun x a => ?_, memRead1_memWrite1_same, fun x _ _ => memRead1_memWrite1_other x, memRead4_memWrite4_same,
    fun x _ _ => memRead4_memWrite4_other x, memRead4_eq_append_memRead1⟩
  rw [memRead1_eq_extractLsb', wordIndex_eq, laneShift_eq]

end Sys2Proof.Machine
end

section
/-! Permitted commands and the read commands (20_memory.md, R37): a permitted command runs its body, and the body of a
read only responds. -/

namespace Sys2Proof.Machine

/-! The rows of R61, each as the list of phases the command's dispatch asks for. -/

theorem permitted_init_iff (p : Phase) : permitted .init p = true ↔ p ∈ [Phase.idle, .absorb, .done] := by
  cases p <;> decide

theorem permitted_pushb_iff (b : Byte) (p : Phase) : permitted (.pushb b) p = true ↔ p ∈ [Phase.absorb] := by
  cases p <;> simp [permitted]

theorem permitted_final_iff (p : Phase) : permitted .final p = true ↔ p ∈ [Phase.absorb] := by
  cases p <;> decide

theorem permitted_rdw_iff (r : BitVec 2) (p : Phase) :
    permitted (.rdw r) p = true ↔ p ∈ [Phase.absorb, .done] := by
  cases p <;> simp [permitted]

theorem permitted_rdb_iff (j : BitVec 4) (p : Phase) : permitted (.rdb j) p = true ↔ p ∈ [Phase.done] := by
  cases p <;> simp [permitted]

theorem permitted_rdh_iff (k : BitVec 5) (p : Phase) : permitted (.rdh k) p = true ↔ p ∈ [Phase.done] := by
  cases p <;> simp [permitted]

/-- A phase in a row that leaves FAULT out runs the body. -/
theorem guarded_of_mem {rc : Bool} {ps : List Phase} {body : State → State} {s : State} (hps : Phase.fault ∉ ps)
    (hp : s.phase ∈ ps) : guarded rc ps body s = .next (body s) :=
  guarded_of_permitted (fun hf => hps (hf ▸ hp)) hp

/-- R60 and R61: a permitted command runs its body. -/
theorem exec_of_permitted {i : Instr} {s : State} (h : permitted i s.phase = true) :
    exec i s = .next (commandBody i s) := by
  cases i with
  | init => exact guarded_of_mem (by decide) ((permitted_init_iff _).1 h)
  | pushb b => exact guarded_of_mem (by decide) ((permitted_pushb_iff b _).1 h)
  | final => exact guarded_of_mem (by decide) ((permitted_final_iff _).1 h)
  | rdw r =>
    rw [exec_rdw, guarded_of_mem (by decide) ((permitted_rdw_iff r _).1 h), Regs.word_eq]
    rfl
  | rdb j => exact guarded_of_mem (by decide) ((permitted_rdb_iff j _).1 h)
  | rdh k => exact guarded_of_mem (by decide) ((permitted_rdh_iff k _).1 h)
  | rds => exact exec_rds s
  | _ => exact absurd h Bool.false_ne_true

/-- A permitted command whose body only responds, with a value that does not look at the response port, adds that value
to the port and adds it again whatever the port holds. -/
theorem exec_respond_repeats {i : Instr} {s : State} (view : State → Word)
    (hbody : ∀ u, commandBody i u = respond (view u) u) (hview : ∀ q, view { s with resp := q } = view s)
    (hp : permitted i s.phase = true) :
    ∃ v, exec i s = .next { s with resp := s.resp ++ [v] } ∧
      ∀ q : List Word, exec i { s with resp := q } = .next { s with resp := q ++ [v] } := by
  refine ⟨view s, ?_, fun q => ?_⟩
  · rw [exec_of_permitted hp, hbody, respond]
  · rw [exec_of_permitted (s := { s with resp := q }) hp, hbody, hview, respond]

/-- Settles O22: each read only responds, with a value of the registers or of the STATUS fields. -/
theorem readsHaveNoSideEffect : Obligations.ReadsHaveNoSideEffect := by
  intro i s hread hp
  rcases hread with ⟨r, rfl⟩ | ⟨j, rfl⟩ | ⟨k, rfl⟩ | rfl
  · exact exec_respond_repeats (fun u => regNumbered u.regs r.toNat) (fun _ => rfl) (fun _ => rfl) hp
  · exact exec_respond_repeats (fun u => (unpackByte u.regs j).setWidth 32) (fun _ => rfl) (fun _ => rfl) hp
  · exact exec_respond_repeats (fun u => (hexChar u.regs k).setWidth 32) (fun _ => rfl) (fun _ => rfl) hp
  · exact exec_respond_repeats status (fun _ => rfl) (fun _ => rfl) hp

end Sys2Proof.Machine
end

section
/-! The command words (30_encoding.md, R46 to R51): decoding to a command, standing in the list of command words and
being well formed are one property of a word, shown as a cycle of three implications; every other word is ILLEGAL. -/

namespace Sys2Proof.Machine

/-! ### From the list to a command -/

/-- A base word plus an operand n of k bits (R56) is n appended to the bits above the operand field (R48). -/
theorem asmWord_shiftLeft_eq_append {a k n : Nat} (h : a + k = 16) (p : BitVec a) (hn : n < 2 ^ k) :
    asmWord (p.toNat <<< k) n = (p ++ BitVec.ofNat k n).cast h := by
  apply BitVec.eq_of_toNat_eq
  have hlt := ((p ++ BitVec.ofNat k n).cast h).isLt
  have hsum : ((p ++ BitVec.ofNat k n).cast h).toNat = p.toNat <<< k + n := by
    rw [BitVec.toNat_cast, BitVec.toNat_append, BitVec.toNat_ofNat, Nat.mod_eq_of_lt hn,
      Nat.shiftLeft_add_eq_or_of_lt hn]
  rw [hsum] at hlt ⊢
  rw [asmWord, BitVec.toNat_ofNat, Nat.mod_eq_of_lt hlt]

/-- The words of a row of R56 with an operand of k bits. -/
theorem exists_append_of_mem_map_asmWord {a k : Nat} (h : a + k = 16) (p : BitVec a) {w : BitVec 16}
    (hw : w ∈ (List.range (2 ^ k)).map (asmWord (p.toNat <<< k))) : ∃ b : BitVec k, w = (p ++ b).cast h := by
  obtain ⟨n, hn, rfl⟩ := List.mem_map.1 hw
  exact ⟨_, asmWord_shiftLeft_eq_append h p (List.mem_range.1 hn)⟩

theorem instr_of_mem_commandWords {w : BitVec 16} (h : w ∈ commandWords) : ∃ i, decodeCommand w = .instr i := by
  simp only [commandWords, List.mem_append, List.mem_singleton, or_assoc] at h
  rcases h with rfl | h | rfl | h | h | h | rfl
  · exact ⟨_, decodeCommand_init⟩
  · obtain ⟨b, rfl⟩ := exists_append_of_mem_map_asmWord (k := 8) rfl 0x20#8 h
    exact ⟨_, decodeCommand_pushb b⟩
  · exact ⟨_, decodeCommand_final⟩
  · obtain ⟨r, rfl⟩ := exists_append_of_mem_map_asmWord (k := 2) rfl 0x1000#14 h
    exact ⟨_, decodeCommand_rdw r⟩
  · obtain ⟨j, rfl⟩ := exists_append_of_mem_map_asmWord (k := 4) rfl 0x500#12 h
    exact ⟨_, decodeCommand_rdb j⟩
  · obtain ⟨k, rfl⟩ := exists_append_of_mem_map_asmWord (k := 5) rfl 0x300#11 h
    exact ⟨_, decodeCommand_rdh k⟩
  · exact ⟨_, decodeCommand_rds⟩

/-! ### From a command to a well-formed word -/

theorem wellFormed_of_instr {w : BitVec 16} {i : Instr} (h : decodeCommand w = .instr i) :
    wordWellFormed w = true := by
  rcases decodeCommand_cases w with ⟨rfl, -⟩ | ⟨b, rfl, -⟩ | ⟨rfl, -⟩ | ⟨r, rfl, -⟩ | ⟨j, rfl, -⟩ | ⟨k, rfl, -⟩ |
    ⟨rfl, -⟩ | ⟨why, d⟩
  · exact Laws.EncodeWellFormed.init
  · exact Laws.EncodeWellFormed.pushb b
  · exact Laws.EncodeWellFormed.final
  · exact Laws.EncodeWellFormed.rdw r
  · exact Laws.EncodeWellFormed.rdb j
  · exact Laws.EncodeWellFormed.rdh k
  · exact Laws.EncodeWellFormed.rds
  · rw [d] at h
    cases h

/-! ### From a well-formed word to the list -/

/-- The well-formed words of one opcode: its base word plus each operand its format has room for (R46, R47). -/
def opcodeWords (o : BitVec 4) : List (BitVec 16) :=
  match formatOf o with
  | none => []
  | some f => (List.range (2 ^ f.operandWidth)).map (asmWord (o.toNat <<< 12))

/-- The command words are the words of the sixteen opcodes in order. -/
theorem commandWords_eq_flatMap_opcodeWords :
    commandWords = (List.finRange 16).flatMap fun o => opcodeWords (BitVec.ofFin o) := by
  decide +kernel

theorem opcodeWords_subset_commandWords (o : BitVec 4) : opcodeWords o ⊆ commandWords := by
  intro w hw
  rw [commandWords_eq_flatMap_opcodeWords]
  exact List.mem_flatMap.2 ⟨o.toFin, List.mem_finRange _, hw⟩

/-- A word is its opcode over its twelve operand bits (R45). -/
theorem asmWord_opcodeOf (w : BitVec 16) : asmWord ((opcodeOf w).toNat <<< 12) (w.extractLsb' 0 12).toNat = w := by
  apply BitVec.eq_of_toNat_eq
  simp only [asmWord, opcodeOf, BitVec.toNat_ofNat, BitVec.extractLsb'_toNat, Nat.shiftLeft_eq,
    Nat.shiftRight_eq_div_pow]
  omega

/-- No bit above the operand field is set exactly when the operand bits are a number of that field's width. -/
theorem ushiftRight_eq_zero_iff_toNat_lt {n : Nat} (x : BitVec n) (k : Nat) : x >>> k = 0#n ↔ x.toNat < 2 ^ k := by
  rw [BitVec.toNat_eq]
  simp [Nat.shiftRight_eq_div_pow]

theorem wordWellFormed_iff (w : BitVec 16) : wordWellFormed w = true ↔
    ∃ f, formatOf (opcodeOf w) = some f ∧ w.extractLsb' 0 12 >>> f.operandWidth = 0#12 := by
  unfold wordWellFormed
  rw [← opcodeOf]
  cases formatOf (opcodeOf w) <;> simp

theorem mem_opcodeWords_of_format {o : BitVec 4} {f : Format} {n : Nat} (hf : formatOf o = some f)
    (hn : n < 2 ^ f.operandWidth) : asmWord (o.toNat <<< 12) n ∈ opcodeWords o := by
  rw [opcodeWords, hf]
  exact List.mem_map_of_mem (List.mem_range.2 hn)

theorem mem_commandWords_of_wellFormed {w : BitVec 16} (h : wordWellFormed w = true) : w ∈ commandWords := by
  obtain ⟨f, hf, hzero⟩ := (wordWellFormed_iff w).1 h
  have hn := (ushiftRight_eq_zero_iff_toNat_lt _ _).1 hzero
  rw [← asmWord_opcodeOf w]
  exact opcodeWords_subset_commandWords _ (mem_opcodeWords_of_format hf hn)

/-! ### ILLEGAL is the rest -/

theorem illegal_iff_not_instr (w : BitVec 16) :
    (∃ r, decodeCommand w = .illegal r) ↔ ¬∃ i, decodeCommand w = .instr i := by
  cases decodeCommand w <;> simp

theorem illegal_iff_not_wellFormed (w : BitVec 16) :
    (∃ r, decodeCommand w = .illegal r) ↔ wordWellFormed w = false := by
  rw [illegal_iff_not_instr, ← Bool.not_eq_true, not_iff_not]
  exact ⟨fun ⟨_, hi⟩ => wellFormed_of_instr hi, fun hw => instr_of_mem_commandWords (mem_commandWords_of_wellFormed hw)⟩

theorem illegal_of_not_mem_commandWords {w : BitVec 16} (h : w ∉ commandWords) :
    ∃ r, decodeCommand w = .illegal r :=
  (illegal_iff_not_instr w).2 fun ⟨_, hi⟩ => h (mem_commandWords_of_wellFormed (wellFormed_of_instr hi))

/-! ### R49 -/

theorem commandWords_ascending : commandWords.IsChain (· < ·) := by
  decide +kernel

theorem commandWords_nodup : commandWords.Nodup := (List.isChain_iff_pairwise.1 commandWords_ascending).nodup

theorem length_commandWords : commandWords.length = 311 := by
  simp [commandWords]

/-- Settles O3: a word that matches a pattern is the pattern's bits over its operand, and the list of command words is
what decodes to a command. -/
theorem decodeIsTheTableOfCommands : Obligations.DecodeIsTheTableOfCommands := by
  refine ⟨⟨decodeCommand_init, decodeCommand_final, decodeCommand_rds, fun w h => ?_, fun w h => ?_, fun w h => ?_,
    fun w h => ?_⟩, fun _ => illegal_of_not_mem_commandWords, fun _ => instr_of_mem_commandWords, commandWords_nodup,
    length_commandWords, by rw [length_commandWords]⟩
  · exact (congrArg decodeCommand (word_of_pushb_pattern h)).trans (decodeCommand_pushb _)
  · exact (congrArg decodeCommand (word_of_rdw_pattern h)).trans (decodeCommand_rdw _)
  · exact (congrArg decodeCommand (word_of_rdb_pattern h)).trans (decodeCommand_rdb _)
  · exact (congrArg decodeCommand (word_of_rdh_pattern h)).trans (decodeCommand_rdh _)

end Sys2Proof.Machine
end

section
/-! ILLEGAL words (30_encoding.md, R51): why a word is ILLEGAL, and what executing one does. -/

namespace Sys2Proof.Machine

/-- The opcodes R51 lists are those the map of R47 leaves unassigned. -/
theorem formatOf_eq_none_iff (o : BitVec 4) : formatOf o = none ↔ o = 0#4 ∨ 8#4 ≤ o := by
  revert o
  decide

/-- What makes a word ill formed: an unassigned opcode, or an operand bit set above its format's field. -/
theorem wordWellFormed_eq_false_iff (w : BitVec 16) : wordWellFormed w = false ↔
    formatOf (opcodeOf w) = none ∨
      ∃ f, formatOf (opcodeOf w) = some f ∧ w.extractLsb' 0 12 >>> f.operandWidth ≠ 0#12 := by
  rw [← Bool.not_eq_true, wordWellFormed_iff]
  cases formatOf (opcodeOf w) <;> simp

theorem respondZeroIf_eq (rc : Bool) (s : State) :
    respondZeroIf rc s = { s with resp := s.resp ++ if rc then [0#32] else [] } := by
  cases rc
  · simp [respondZeroIf]
  · rfl

/-- R51's examples: the two ends of the opcode map, and an operand too long for its field under six of the opcodes. -/
theorem illegal_of_mem_examples {w : BitVec 16}
    (h : w ∈ [0x0000#16, 0xFFFF#16, 0x1001#16, 0x2100#16, 0x4004#16, 0x5010#16, 0x6020#16, 0x7001#16]) :
    ∃ r, decodeCommand w = .illegal r := by
  simp only [List.mem_cons, List.not_mem_nil, or_false] at h
  rw [illegal_iff_not_wellFormed]
  rcases h with rfl | rfl | rfl | rfl | rfl | rfl | rfl | rfl <;> rfl

/-- R60 for an ILLEGAL word outside FAULT: cause 1, and the zero response of the read class. -/
theorem step_of_illegal {s : State} {w : BitVec 16} {rest : List PortEvent} {r : Reject} (he : s.engine = none)
    (hf : s.phase ≠ .fault) (hp : s.port = .cmd w :: rest) (hd : decodeCommand w = .illegal r) :
    step s = .next (raiseFault .illegalCmd (respondZeroIf (readClass w) { s with port := rest })) := by
  rw [step_of_word he hp, runWord_of_illegal hd, illegalCommand_of_not_fault (s := { s with port := rest }) hf]

/-- Settles O4: the ILLEGAL words are the ill-formed ones, and the step on one raises ILLEGAL_CMD. -/
theorem illegalWordsAreUnassignedOrOverlong : Obligations.IllegalWordsAreUnassignedOrOverlong := by
  refine ⟨fun w => ?_, fun _ => (formatOf_eq_none_iff _).symm, fun _ => illegal_of_mem_examples,
    fun s w rest r he hf hp hd => ?_⟩
  · rw [illegal_iff_not_wellFormed, wordWellFormed_eq_false_iff]
  · rw [step_of_illegal he hf hp hd, respondZeroIf_eq, raiseFault]

end Sys2Proof.Machine
end

section
/-! Responses (30_encoding.md, R50): a command word answers once when it is of the read class and not at all when it is
not. -/

namespace Sys2Proof.Machine

theorem readClass_iff (w : BitVec 16) :
    readClass w = true ↔ opcodeOf w = 4#4 ∨ opcodeOf w = 5#4 ∨ opcodeOf w = 6#4 ∨ opcodeOf w = 7#4 := by
  simp [readClass, or_assoc]

/-- From s to t the port events stay and one response is added if `answers`, none if not. -/
def RespondsOnceIf (answers : Bool) (s t : State) : Prop :=
  t.port = s.port ∧ (answers = true → ∃ v, t.resp = s.resp ++ [v]) ∧ (answers = false → t.resp = s.resp)

theorem respondsOnceIf_respond (v : Word) (s : State) : RespondsOnceIf true s (respond v s) :=
  ⟨rfl, fun _ => ⟨v, rfl⟩, fun h => absurd h.symm Bool.false_ne_true⟩

theorem respondsOnceIf_false {s t : State} (hport : t.port = s.port) (hresp : t.resp = s.resp) :
    RespondsOnceIf false s t :=
  ⟨hport, fun h => absurd h Bool.false_ne_true, fun _ => hresp⟩

theorem respondsOnceIf_respondZeroIf (rc : Bool) (s : State) : RespondsOnceIf rc s (respondZeroIf rc s) := by
  cases rc with
  | true => exact respondsOnceIf_respond 0#32 s
  | false => exact respondsOnceIf_false rfl rfl

/-- R50 for one command word, over everything the word can do. -/
theorem runWord_respondsOnceIf {w : BitVec 16} {s t : State} (h : runWord w s = .next t) :
    RespondsOnceIf (readClass w) s t := by
  rcases runWord_cases h with ⟨rfl, rfl⟩ | ⟨-, -, rfl⟩ | ⟨-, -, rfl⟩ | ⟨i, -, -, -, -, rfl⟩ | ⟨rfl, -, rfl⟩ |
    ⟨b, rfl, -, rfl⟩ | ⟨rfl, -, rfl⟩ | ⟨v, hrc, -, -, rfl⟩
  · exact respondsOnceIf_respond _ s
  · exact respondsOnceIf_respondZeroIf _ s
  · exact respondsOnceIf_respondZeroIf _ s
  · exact respondsOnceIf_respondZeroIf _ s
  · exact respondsOnceIf_false rfl rfl
  · rw [readClass_pushWord]
    exact respondsOnceIf_false (pushBody_port b s) (pushBody_resp b s)
  · exact respondsOnceIf_false (finalBody_port s) (finalBody_resp s)
  · rw [hrc]
    exact respondsOnceIf_respond v s

/-- Settles O12: the step on a command word is the word's run on the state with the word taken. -/
theorem oneResponsePerReadClassWord : Obligations.OneResponsePerReadClassWord := by
  refine ⟨readClass_iff, fun s w rest he hp => ?_⟩
  obtain ⟨t, ht⟩ := step_next s
  rw [step_of_word he hp] at ht ⊢
  exact ⟨t, ht, runWord_respondsOnceIf ht⟩

end Sys2Proof.Machine
end

section
/-! Dispatch (40_control.md section 1, R60 and R61): a command other than RDS goes through its row of the permission
table, so beside running its body it can only be locked out in FAULT or take BAD_PHASE. -/

namespace Sys2Proof.Machine

/-- A command other than RDS is dispatched by the phases of its row of R61, as a read exactly when its word is one. -/
theorem exec_eq_guarded_of_instr {w : BitVec 16} {i : Instr} (hd : decodeCommand w = .instr i) (hi : i ≠ .rds) :
    ∃ ps body, (∀ p, permitted i p = true ↔ p ∈ ps) ∧ ∀ s, exec i s = guarded (readClass w) ps body s := by
  rcases decodeCommand_cases w with ⟨rfl, e⟩ | ⟨b, rfl, e⟩ | ⟨rfl, e⟩ | ⟨r, rfl, e⟩ | ⟨j, rfl, e⟩ | ⟨k, rfl, e⟩ |
    ⟨rfl, e⟩ | ⟨why, e⟩ <;> cases hd.symm.trans e
  · exact ⟨_, _, permitted_init_iff, exec_init⟩
  · exact ⟨_, _, permitted_pushb_iff b, fun s => by rw [readClass_pushWord, exec_pushb]⟩
  · exact ⟨_, _, permitted_final_iff, exec_final⟩
  · exact ⟨_, _, permitted_rdw_iff r, fun s => by rw [readClass_rdw, exec_rdw]⟩
  · exact ⟨_, _, permitted_rdb_iff j, fun s => by rw [readClass_rdb, exec_rdb]⟩
  · exact ⟨_, _, permitted_rdh_iff k, fun s => by rw [readClass_rdh, exec_rdh]⟩
  · exact absurd rfl hi

/-- The FAULT lock (R125): in FAULT a command other than RDS does nothing but answer 0 when it is a read. -/
theorem exec_of_fault {w : BitVec 16} {i : Instr} {s : State} (hd : decodeCommand w = .instr i) (hi : i ≠ .rds)
    (hf : s.phase = .fault) : exec i s = .next (respondZeroIf (readClass w) s) := by
  obtain ⟨ps, body, -, hexec⟩ := exec_eq_guarded_of_instr hd hi
  rw [hexec, guarded_of_fault hf]

/-- The "no" cells of R61: outside FAULT a command that is not permitted takes BAD_PHASE. -/
theorem exec_of_not_permitted {w : BitVec 16} {i : Instr} {s : State} (hd : decodeCommand w = .instr i)
    (hf : s.phase ≠ .fault) (hp : permitted i s.phase = false) :
    exec i s = .next (raiseFault .badPhase (respondZeroIf (readClass w) s)) := by
  have hi : i ≠ .rds := by
    rintro rfl
    exact Bool.false_ne_true hp.symm
  obtain ⟨ps, body, hrow, hexec⟩ := exec_eq_guarded_of_instr hd hi
  have hout : s.phase ∉ ps := fun hin => Bool.false_ne_true (hp.symm.trans ((hrow _).2 hin))
  rw [hexec, guarded_of_not_permitted hf hout]

/-! ### R60 -/

/-- The run of an ILLEGAL word, as R60 writes it. -/
theorem execAsWritten_of_illegal {w : BitVec 16} {r : Reject} (hd : decodeCommand w = .illegal r) (s : State) :
    execAsWritten w s = illegalCommand w s := by
  simp only [execAsWritten, hd, reduceCtorEq, if_false]
  rfl

/-- The run of a command word other than RDS, as R60 writes it. -/
theorem execAsWritten_of_instr {w : BitVec 16} {i : Instr} (hd : decodeCommand w = .instr i) (hi : i ≠ .rds)
    (s : State) : execAsWritten w s =
      if s.phase = .fault then respondZeroIf (readClass w) s
      else if permitted i s.phase then commandBody i s
      else raiseFault .badPhase (respondZeroIf (readClass w) s) := by
  simp only [execAsWritten, hd, Decoded.instr.injEq, hi, if_false]
  rfl

theorem execAsWritten_of_rds {w : BitVec 16} (hd : decodeCommand w = .instr .rds) (s : State) :
    execAsWritten w s = respond (status s) s :=
  if_pos hd

/-- `Exec(w)` of the machine is R60's text: RDS, the ILLEGAL words, and the three outcomes of every other command. -/
theorem runWord_eq_execAsWritten (w : BitVec 16) (s : State) : runWord w s = .next (execAsWritten w s) := by
  cases hd : decodeCommand w with
  | illegal r => rw [runWord_of_illegal hd, execAsWritten_of_illegal hd]
  | instr i =>
    rw [runWord_of_instr hd]
    by_cases hi : i = .rds
    · subst hi
      rw [exec_rds, execAsWritten_of_rds hd]
    rw [execAsWritten_of_instr hd hi]
    by_cases hf : s.phase = .fault
    · rw [if_pos hf, exec_of_fault hd hi hf]
    cases hp : permitted i s.phase with
    | true => rw [if_neg hf, if_pos rfl, exec_of_permitted hp]
    | false => rw [if_neg hf, if_neg Bool.false_ne_true, exec_of_not_permitted hd hf hp]

/-- Settles O9: the step on a command word is the word's run, which is R60's text. -/
theorem stepIsExecAsWritten : Obligations.StepIsExecAsWritten := by
  intro s w rest he hp
  rw [step_of_word he hp, runWord_eq_execAsWritten]

end Sys2Proof.Machine
end

section
/-! The permission table (40_control.md section 1, R61), cell by cell: each "yes" is the body of a permitted command, each
"no" is BAD_PHASE with the answer of its read class. -/

namespace Sys2Proof.Machine

/-- A "no" for a command that is no read. -/
theorem exec_of_refused_silent {w : BitVec 16} {i : Instr} {s : State} (hd : decodeCommand w = .instr i)
    (hrc : readClass w = false) (h : s.phase ≠ .fault ∧ permitted i s.phase = false) :
    exec i s = .next { s with ecode := .badPhase, phase := .fault } := by
  obtain ⟨hf, hp⟩ := h
  rw [exec_of_not_permitted hd hf hp, hrc]
  rfl

/-- A "no" for a read. -/
theorem exec_of_refused_read {w : BitVec 16} {i : Instr} {s : State} (hd : decodeCommand w = .instr i)
    (hrc : readClass w = true) (h : s.phase ≠ .fault ∧ permitted i s.phase = false) :
    exec i s = .next { s with resp := s.resp ++ [0#32], ecode := .badPhase, phase := .fault } := by
  obtain ⟨hf, hp⟩ := h
  rw [exec_of_not_permitted hd hf hp, hrc]
  rfl

/-- Settles O10: row by row, the "yes" phases are those the row lists and the "no" phases the others but FAULT. -/
theorem permissionTable : Obligations.PermissionTable := by
  refine ⟨fun s h => ?_, fun s b => ⟨fun h => ?_, fun h => ?_⟩, fun s => ⟨fun h => ?_, fun h => ?_⟩,
    fun s r => ⟨fun h => ?_, fun h => ?_⟩, fun s j => ⟨fun h => ?_, fun h => ?_⟩,
    fun s k => ⟨fun h => ?_, fun h => ?_⟩, exec_rds⟩
  · exact exec_of_permitted ((permitted_init_iff _).2 (by simpa using h))
  · exact exec_of_permitted ((permitted_pushb_iff b _).2 (by simpa using h))
  · exact exec_of_refused_silent (decodeCommand_pushWord b) (readClass_pushWord b)
      (by rcases h with h | h <;> simp [h, permitted])
  · exact exec_of_permitted ((permitted_final_iff _).2 (by simpa using h))
  · exact exec_of_refused_silent decodeCommand_final (by decide) (by rcases h with h | h <;> simp [h, permitted])
  · exact exec_of_permitted ((permitted_rdw_iff r _).2 (by simpa using h))
  · exact exec_of_refused_read (decodeCommand_rdw r) (readClass_rdw r) (by simp [h, permitted])
  · exact exec_of_permitted ((permitted_rdb_iff j _).2 (by simpa using h))
  · exact exec_of_refused_read (decodeCommand_rdb j) (readClass_rdb j)
      (by rcases h with h | h <;> simp [h, permitted])
  · exact exec_of_permitted ((permitted_rdh_iff k _).2 (by simpa using h))
  · exact exec_of_refused_read (decodeCommand_rdh k) (readClass_rdh k)
      (by rcases h with h | h <;> simp [h, permitted])

end Sys2Proof.Machine
end

section
/-! INIT and RDS (40_control.md sections 2 and 3, R62 and R63): INIT runs its body in every phase but FAULT and forgets
what its body overwrites; RDS answers STATUS in every phase. -/

namespace Sys2Proof.Machine

/-! ### INIT -/

/-- The INIT row of R61 has a "yes" in every phase but FAULT. -/
theorem exec_init_of_not_fault {s : State} (hf : s.phase ≠ .fault) : exec .init s = .next (initBody s) := by
  have hp : permitted .init s.phase = true := by
    cases h : s.phase with
    | fault => exact absurd h hf
    | _ => rfl
  exact exec_of_permitted hp

theorem exec_init_of_fault {s : State} (hf : s.phase = .fault) : exec .init s = .next s :=
  exec_of_fault decodeCommand_init (by decide) hf

/-- What INIT leaves, INIT leaves alone: in FAULT it does nothing, elsewhere its body overwrites the same fields with
the same values. -/
theorem exec_init_idempotent {s t : State} (h : exec .init s = .next t) : exec .init t = .next t := by
  by_cases hf : s.phase = .fault
  · cases (exec_init_of_fault hf).symm.trans h
    exact exec_init_of_fault hf
  · cases (exec_init_of_not_fault hf).symm.trans h
    exact exec_init_of_not_fault (s := initBody s) (by simp)

/-- Settles O13: INIT's body outside FAULT, nothing in FAULT, and after both a second INIT changes nothing. -/
theorem initBeginsADigest : Obligations.InitBeginsADigest := by
  refine ⟨by decide, fun s h => ?_, fun s => exec_init_of_fault, fun s t => exec_init_idempotent, fun t h => ?_⟩
  · exact exec_init_of_not_fault (by rcases h with h | h | h <;> simp [h])
  · cases (exec_init_of_not_fault (s := State.reset) (by decide)).symm.trans h
    exact ⟨rfl, rfl, exec_of_permitted (i := .rdw 0#2) (s := initBody State.reset) rfl⟩

/-! ### RDS -/

/-- STATUS from the values of the three fields it shows (R20). -/
theorem status_of_fields {s : State} {p : Phase} {l : Bool} {e : Cause} (hp : s.phase = p) (hl : s.lovf = l)
    (he : s.ecode = e) : status s = 0#27 ++ (e.code ++ (BitVec.ofBool l ++ p.code)) := by
  rw [status_eq_append, hp, hl, he]

/-- A word of a format without an operand is ILLEGAL unless it is the base word of its opcode (R46, R51). -/
theorem illegal_of_format_z {w : BitVec 16} (hf : formatOf (opcodeOf w) = some .z)
    (hw : w ≠ asmWord ((opcodeOf w).toNat <<< 12) 0) : ∃ r, decodeCommand w = .illegal r := by
  refine (illegal_iff_not_wellFormed w).2 ((wordWellFormed_eq_false_iff w).2 (.inr ⟨.z, hf, fun hzero => hw ?_⟩))
  have hbits : (w.extractLsb' 0 12).toNat = 0 := Nat.lt_one_iff.1 ((ushiftRight_eq_zero_iff_toNat_lt _ 0).1 hzero)
  rw [← hbits, asmWord_opcodeOf]

/-- After INIT from a state outside FAULT with ECODE 0, RDS answers 1: ABSORB, no LOVF, no cause. -/
theorem exec_rds_after_init {s t : State} (hf : s.phase ≠ .fault) (he : s.ecode = .none)
    (h : exec .init s = .next t) : exec .rds t = .next { t with resp := t.resp ++ [1#32] } := by
  cases (exec_init_of_not_fault hf).symm.trans h
  have hstatus : status (initBody s) = 1#32 := status_of_fields (initBody_phase s) (initBody_lovf s) he
  rw [exec_rds, hstatus, respond]

/-- Settles O14: RDS only responds, the FAULT lock holds the other six commands, and STATUS is read off its layout. -/
theorem rdsRespondsStatus : Obligations.RdsRespondsStatus := by
  refine ⟨by decide, exec_rds, fun s hf => ⟨⟨exec_init_of_fault hf, ?_, fun b => ?_⟩, fun r => ?_, fun j => ?_,
    fun k => ?_⟩, fun w ho hw => ?_, fun s => ⟨status_of_fields, status_of_fields, status_of_fields, status_of_fields,
    status_of_fields, status_of_fields, status_of_fields, status_of_fields⟩, status_reset,
    fun s t => exec_rds_after_init⟩
  · exact exec_of_fault decodeCommand_final (by decide) hf
  · rw [exec_of_fault (decodeCommand_pushWord b) nofun hf, readClass_pushWord]
    rfl
  · rw [exec_of_fault (decodeCommand_rdw r) nofun hf, readClass_rdw]
    rfl
  · rw [exec_of_fault (decodeCommand_rdb j) nofun hf, readClass_rdb]
    rfl
  · rw [exec_of_fault (decodeCommand_rdh k) nofun hf, readClass_rdh]
    rfl
  · exact illegal_of_format_z (by rw [ho]; rfl) (by rw [ho]; exact hw)

end Sys2Proof.Machine
end

section
/-! Pack (41_packer.md section 1, R70): a packed word is its four bytes side by side, so a lane is read back by its
place. -/

namespace Sys2Proof.Machine

/-- Lane q of a packed word is byte q of its four; the last of the four is the highest lane. -/
theorem packWord_lane (m : List Byte) (i : Nat) {q : Nat} (hq : q < 4) :
    (packWord m i).extractLsb' (8 * q) 8 = m.getD (4 * i + q) 0#8 := by
  rw [packWord_eq_append]
  obtain rfl | rfl | rfl | rfl : q = 0 ∨ q = 1 ∨ q = 2 ∨ q = 3 := by omega
  · exact BitVec.extractLsb'_append_eq_right
  · rw [BitVec.extractLsb'_append_eq_of_le (by decide)]
    exact BitVec.extractLsb'_append_eq_right
  · rw [BitVec.extractLsb'_append_eq_of_le (by decide), BitVec.extractLsb'_append_eq_of_le (by decide)]
    exact BitVec.extractLsb'_append_eq_right
  · rw [BitVec.extractLsb'_append_eq_of_le (by decide), BitVec.extractLsb'_append_eq_of_le (by decide)]
    exact BitVec.extractLsb'_append_eq_left

/-- Settles O37: byte p is lane `p mod 4` of word `p / 4`, and a byte beyond the end reads 0. -/
theorem packIsLittleEndian : Obligations.PackIsLittleEndian := by
  refine fun m => ⟨length_pack m, fun p _ => ?_⟩
  rw [pack_getD, packWord_lane m _ (Nat.mod_lt p (by decide)), Nat.div_add_mod]
  split
  · rfl
  · next hp => exact List.getD_eq_default _ _ (Nat.le_of_not_lt hp)

end Sys2Proof.Machine
end

section
/-! PUSHB (41_packer.md section 2, R71): the byte is stored and counted, and the byte at address 63 completes a block. -/

namespace Sys2Proof.Machine

/-! ### The word -/

/-- R56: the code of PUSHB is its base word plus the byte. -/
theorem encode_pushb (b : Byte) : encode (.pushb b) = .cmd (asmWord 0x2000 b.toNat) := by
  have h := asmWord_shiftLeft_eq_append (k := 8) rfl 0x20#8 b.isLt
  rw [BitVec.ofNat_toNat, BitVec.setWidth_eq] at h
  exact congrArg Code.cmd h.symm

/-- Bits 11:8 of a PUSHB word must be 0 (R46). -/
theorem illegal_of_pushb_overlong {w : BitVec 16} (ho : opcodeOf w = 2#4) (hw : w.extractLsb' 8 4 ≠ 0#4) :
    ∃ r, decodeCommand w = .illegal r := by
  have hf : formatOf (opcodeOf w) = some .b := by rw [ho]; rfl
  refine (illegal_iff_not_wellFormed w).2 ((wordWellFormed_eq_false_iff w).2 (.inr ⟨.b, hf, fun hzero => hw ?_⟩))
  have hlt : (w.extractLsb' 0 12).toNat < 2 ^ 8 := (ushiftRight_eq_zero_iff_toNat_lt _ 8).1 hzero
  apply BitVec.eq_of_toNat_eq
  simp only [BitVec.extractLsb'_toNat, Nat.shiftRight_eq_div_pow, BitVec.toNat_ofNat] at hlt ⊢
  omega

/-! ### The body -/

theorem pushBody_of_room {s : State} (b : Byte) (h : s.nb.toNat % 64 ≠ 63) : pushBody b s = storeByte b s :=
  if_neg (mt (bufAddress_eq_63 s.nb).1 h)

theorem pushBody_of_full {s : State} (b : Byte) (h : s.nb.toNat % 64 = 63) :
    pushBody b s = blockOp (storeByte b s) :=
  if_pos ((bufAddress_eq_63 s.nb).2 h)

/-- ORing a zero byte into the buffer stores nothing. -/
theorem orByte_zero (x : Block) (a : BitVec 6) : orByte x a 0#8 = x := by
  rw [orByte, BitVec.setWidth_zero, BitVec.zero_shiftLeft, BitVec.or_zero, Block.setWord_self]

/-- NB wraps from its last value only, which is the address 63 of its block: a byte that fills no block does not wrap
it. -/
theorem lovfAfterPush_of_room {nb : BitVec 29} (l : Bool) (h : nb.toNat % 64 ≠ 63) : lovfAfterPush nb l = l := by
  rw [lovfAfterPush_eq, if_neg (by omega)]

/-! ### The command, phase by phase -/

theorem exec_pushb_of_absorb {s : State} (b : Byte) (h : s.phase = .absorb) :
    exec (.pushb b) s = .next (pushBody b s) :=
  exec_of_permitted ((permitted_pushb_iff b _).2 (by simp [h]))

/-- A byte stored where it fills no block. -/
theorem exec_pushb_of_room {s : State} (b : Byte) (h : s.phase = .absorb) (hr : s.nb.toNat % 64 ≠ 63) :
    exec (.pushb b) s = .next (storeByte b s) := by
  rw [exec_pushb_of_absorb b h, pushBody_of_room b hr]

theorem exec_pushb_of_refused {s : State} (b : Byte) (h : s.phase = .idle ∨ s.phase = .done) :
    exec (.pushb b) s = .next { s with ecode := .badPhase, phase := .fault } :=
  exec_of_refused_silent (decodeCommand_pushWord b) (readClass_pushWord b)
    (by rcases h with h | h <;> simp [h, permitted])

theorem exec_pushb_of_fault {s : State} (b : Byte) (h : s.phase = .fault) : exec (.pushb b) s = .next s := by
  rw [exec_of_fault (decodeCommand_pushWord b) nofun h, readClass_pushWord]
  rfl

/-- The first half of R71, as the rule writes it. -/
theorem storeByte_eq (b : Byte) (s : State) : storeByte b s = { s with
    x := s.x.setWord (BitVec.ofNat 4 (s.nb.toNat % 64 / 4))
      (s.x.word (BitVec.ofNat 4 (s.nb.toNat % 64 / 4)) ||| (b.setWidth 32 <<< (8 * (s.nb.toNat % 64 % 4))))
    nb := BitVec.ofNat 29 (s.nb.toNat + 1)
    lovf := if s.nb.toNat = 2 ^ 29 - 1 then true else s.lovf } := by
  rw [storeByte, orByte_bufAddress, nb_add_one, lovfAfterPush_eq]

/-- A zero byte that fills no block only counts. -/
theorem storeByte_zero_of_room {s : State} (h : s.nb.toNat % 64 ≠ 63) :
    storeByte 0#8 s = { s with nb := BitVec.ofNat 29 (s.nb.toNat + 1) } := by
  rw [storeByte, orByte_zero, lovfAfterPush_of_room _ h, nb_add_one]

/-- R71's example: "a" and "b" pushed right after INIT lie in the two low lanes of X[0]. -/
theorem pushb_a_b_after_init {s t u v : State} (hf : s.phase ≠ .fault) (ht : exec .init s = .next t)
    (hu : exec (.pushb 0x61#8) t = .next u) (hv : exec (.pushb 0x62#8) u = .next v) :
    u.x.word 0#4 = 0x61#32 ∧ u.nb = 1#29 ∧ v.x.word 0#4 = 0x6261#32 ∧ v.nb = 2#29 := by
  cases (exec_init_of_not_fault hf).symm.trans ht
  cases (exec_pushb_of_room _ (initBody_phase s) (by simp)).symm.trans hu
  cases (exec_pushb_of_room (s := storeByte 0x61#8 (initBody s)) _ rfl (by simp)).symm.trans hv
  simp only [storeByte_x, storeByte_nb, initBody_x, initBody_nb]
  decide +kernel

/-- Settles O16: the body in ABSORB by whether the address is 63, BAD_PHASE and the FAULT lock in the other phases. -/
theorem pushbAppendsOneByte : Obligations.PushbAppendsOneByte := by
  refine ⟨encode_pushb, fun s b => ⟨fun h hr => ?_, fun h hr => ?_, exec_pushb_of_refused b, exec_pushb_of_fault b,
    fun h hr hb => ?_⟩, fun _ => illegal_of_pushb_overlong, fun _ _ _ _ => pushb_a_b_after_init⟩
  · rw [exec_pushb_of_room b h hr, storeByte_eq]
  · rw [exec_pushb_of_absorb b h, pushBody_of_full b hr, storeByte_eq]
    rfl
  · rw [hb, exec_pushb_of_room _ h hr, storeByte_zero_of_room hr]

end Sys2Proof.Machine
end

section
/-! FINAL (42_padder.md section 2, R82): the terminator is stored, a block without room for the length is compressed and
cleared first, and the block with the length is the last. -/

namespace Sys2Proof.Machine

/-! ### The body -/

theorem makeRoom_of_room {s : State} (h : s.nb.toNat % 64 < 56) : makeRoom s = s :=
  if_neg (mt (le_bufAddress_56 s.nb).1 (Nat.not_le.2 h))

theorem makeRoom_of_no_room {s : State} (h : 56 ≤ s.nb.toNat % 64) : makeRoom s = blockOp s :=
  if_pos ((le_bufAddress_56 s.nb).2 h)

/-- The terminator's store, as R82 writes it. -/
theorem terminate_eq (s : State) : terminate s = { s with
    x := s.x.setWord (BitVec.ofNat 4 (s.nb.toNat % 64 / 4))
      (s.x.word (BitVec.ofNat 4 (s.nb.toNat % 64 / 4)) ||| (0x80#32 <<< (8 * (s.nb.toNat % 64 % 4)))) } := by
  rw [terminate, orByte_bufAddress]
  rfl

/-- The length's store, as R82 writes it. -/
theorem writeLength_eq (s : State) :
    writeLength s = { s with x := s.x.setWord 14#4 (BitVec.ofNat 32 (8 * s.nb.toNat)) } := by
  rw [writeLength, memWrite4, bitLength_eq]

/-- The terminator and the length share the one block. -/
theorem finalBody_of_room {s : State} (h : s.nb.toNat % 64 < 56) :
    finalBody s = { blockOp (writeLength (terminate s)) with phase := .done } := by
  rw [finalBody, makeRoom_of_room (s := terminate s) h]

/-- The terminator ends one block and the length stands in the next. -/
theorem finalBody_of_no_room {s : State} (h : 56 ≤ s.nb.toNat % 64) :
    finalBody s = { blockOp (writeLength (blockOp (terminate s))) with phase := .done } := by
  rw [finalBody, makeRoom_of_no_room (s := terminate s) h]

/-! ### The command, phase by phase -/

theorem exec_final_of_absorb {s : State} (h : s.phase = .absorb) : exec .final s = .next (finalBody s) :=
  exec_of_permitted ((permitted_final_iff _).2 (by simp [h]))

theorem exec_final_of_refused {s : State} (h : s.phase = .idle ∨ s.phase = .done) :
    exec .final s = .next { s with ecode := .badPhase, phase := .fault } :=
  exec_of_refused_silent decodeCommand_final (by decide) (by rcases h with h | h <;> simp [h, permitted])

theorem exec_final_of_fault {s : State} (h : s.phase = .fault) : exec .final s = .next s :=
  exec_of_fault decodeCommand_final (by decide) h

/-! ### The example of R82 -/

/-- The one padded block of "abc": its bytes, the terminator after them, and the length of 24 bits. -/
def abcBlock : Block := (Block.zero.setWord 0#4 0x80636261#32).setWord 14#4 24#32

theorem compress_iv_abcBlock :
    compress iv abcBlock = ⟨0x98500190#32, 0xb04fd23c#32, 0x7d3f96d6#32, 0x727fe128#32⟩ := by
  decide +kernel

/-- The state INIT and the bytes of "abc" leave. -/
def abcAbsorbed (s : State) : State := storeByte 0x63#8 (storeByte 0x62#8 (storeByte 0x61#8 (initBody s)))

theorem eq_storeByte_of_exec_pushb {s t : State} {b : Byte} (e : exec (.pushb b) s = .next t)
    (h : s.phase = .absorb) (hr : s.nb.toNat % 64 ≠ 63) : t = storeByte b s := by
  cases (exec_pushb_of_room b h hr).symm.trans e
  rfl

theorem eq_abcAbsorbed_of_exec {s t u v w : State} (hf : s.phase ≠ .fault) (ht : exec .init s = .next t)
    (hu : exec (.pushb 0x61#8) t = .next u) (hv : exec (.pushb 0x62#8) u = .next v)
    (hw : exec (.pushb 0x63#8) v = .next w) : w = abcAbsorbed s := by
  cases (exec_init_of_not_fault hf).symm.trans ht
  obtain rfl := eq_storeByte_of_exec_pushb hu rfl (by simp)
  obtain rfl := eq_storeByte_of_exec_pushb hv rfl (by simp)
  exact eq_storeByte_of_exec_pushb hw rfl (by simp)

theorem pad_abcAbsorbed (s : State) : (writeLength (terminate (abcAbsorbed s))).x = abcBlock := by
  simp only [abcAbsorbed, writeLength_x, terminate_x, terminate_nb, storeByte_x, storeByte_nb, initBody_x, initBody_nb]
  decide +kernel

/-- FINAL compresses that block from IV and no other. -/
theorem finalBody_abcAbsorbed_regs (s : State) : (finalBody (abcAbsorbed s)).regs = compress iv abcBlock := by
  rw [finalBody_of_room (by simp [abcAbsorbed]), blockOp_regs, pad_abcAbsorbed]
  rfl

/-- Settles O18: the body in ABSORB by whether the address is 56 or more, BAD_PHASE and the FAULT lock in the other
phases, and the digest of the one block of "abc". -/
theorem finalPadsAndCompresses : Obligations.FinalPadsAndCompresses := by
  refine ⟨by decide, fun s => ⟨fun h hr => ?_, fun h hr => ?_, exec_final_of_refused, exec_final_of_fault⟩,
    fun w ho hw => ?_, fun s t u v w y hf ht hu hv hw hy => ?_⟩
  · rw [exec_final_of_absorb h, finalBody_of_room hr, writeLength_eq, terminate_eq]
    rfl
  · rw [exec_final_of_absorb h, finalBody_of_no_room hr, writeLength_eq, terminate_eq]
    rfl
  · exact illegal_of_format_z (by rw [ho]; rfl) (by rw [ho]; exact hw)
  · obtain rfl := eq_abcAbsorbed_of_exec hf ht hu hv hw
    cases (exec_final_of_absorb (s := abcAbsorbed s) rfl).symm.trans hy
    rw [finalBody_abcAbsorbed_regs, compress_iv_abcBlock]

end Sys2Proof.Machine
end

section
/-! The rotation (43_compression.md section 4, R98): `rotl32` moves every bit, and the sixteen counts the steps use. -/

namespace Sys2Proof.Machine

/-- A bit below the wrap is the bit s places lower; one past it came from the top. -/
theorem rotl32_getLsbD (t : Word) {s p : Nat} (hs : s < 32) (hp : p < 32) :
    (rotl32 t s).getLsbD ((p + s) % 32) = t.getLsbD p := by
  rw [rotl32_eq_rotateLeft t hs, BitVec.getLsbD_rotateLeft, Nat.mod_eq_of_lt hs]
  by_cases hw : p + s < 32
  · have hn : ¬ p + s < s := by omega
    simp [Nat.mod_eq_of_lt hw, hw, hn]
  · have hm : (p + s) % 32 = p + s - 32 := by omega
    have hl : p + s - 32 < s := by omega
    have hb : 32 - s + (p + s - 32) = p := by omega
    simp [hm, hl, hb]

/-- The counts in S, ascending (R98, R100). -/
def rotationCounts : List Nat := [4, 5, 6, 7, 9, 10, 11, 12, 14, 15, 16, 17, 20, 21, 22, 23]

theorem tableS_mem_rotationCounts (i : BitVec 6) : tableS i ∈ rotationCounts := by
  revert i
  decide +kernel

theorem exists_tableS_eq_of_mem : ∀ n ∈ rotationCounts, ∃ i : BitVec 6, tableS i = n := by decide +kernel

/-- Settles O30: the rotation bit by bit, and the counts of S in both directions. -/
theorem rotationMovesEveryBit : Obligations.RotationMovesEveryBit := by
  refine ⟨fun t s p _ hs hp => rotl32_getLsbD t (by omega) hp, fun n => ⟨?_, exists_tableS_eq_of_mem n⟩, by decide⟩
  rintro ⟨i, rfl⟩
  exact tableS_mem_rotationCounts i

end Sys2Proof.Machine
end

section
/-! The tables S and K (43_compression.md section 5, R100 and R101). -/

namespace Sys2Proof.Machine

/-- No round uses a word twice. -/
theorem tableK_injective (round : BitVec 2) : Function.Injective fun pos : BitVec 4 => tableK (round ++ pos) := by
  revert round
  decide +kernel

/-- A round has as many steps as the block has words, so using none twice it uses each once. -/
theorem tableK_bijective (round : BitVec 2) : Function.Bijective fun pos : BitVec 4 => tableK (round ++ pos) :=
  (tableK_injective round).bijective_of_finite

/-- Settles O31: the two formulas at each of the 64 steps, and K a permutation of the words in each round. -/
theorem rotationAndWordSchedules : Obligations.RotationAndWordSchedules :=
  ⟨by decide +kernel, by decide +kernel, fun round => (tableK_bijective round).existsUnique⟩

end Sys2Proof.Machine
end

section
/-! One step micro-operation (43_compression.md sections 2 and 3, R91 and R92): which register it writes and with what,
by `i mod 4`. -/

namespace Sys2Proof.Machine

/-- The new value of R91 for step i, with its round function, word, constant and count taken from the tables. -/
def stepWord (i : BitVec 6) (a b c d : Word) (x : Block) : Word :=
  (a + roundFn (stepRound i) b c d + x.word (tableK i) + tableT i).rotateLeft (tableS i) + b

/-- The rotation of R91 is the library's, since every count of S is below 32. -/
theorem stepValue_eq_stepWord (i : BitVec 6) (a b c d : Word) (x : Block) :
    stepValue (roundFn (stepRound i)) a b c d (x.word (tableK i)) (tableS i) (tableT i) = stepWord i a b c d x := by
  simp only [stepValue, add32, stepWord, rotl32_eq_rotateLeft _ (tableS_lt i)]

theorem engineStep_eq_set (i : BitVec 6) {ro : Roles} (h : roles (stepMod4 i) = ro) (g : Regs) (x : Block) :
    engineStep i g x = g.set ro.a (stepWord i (g.get ro.a) (g.get ro.b) (g.get ro.c) (g.get ro.d) x) := by
  simp only [engineStep, stepValue_eq_stepWord, h]

theorem exec_decodeStep_set (i : BitVec 6) {ro : Roles} (h : roles (stepMod4 i) = ro) (s : State) :
    exec (decodeStep i) s = .next { s with
      regs := s.regs.set ro.a
        (stepWord i (s.regs.get ro.a) (s.regs.get ro.b) (s.regs.get ro.c) (s.regs.get ro.d) s.x) } := by
  rw [exec_decodeStep, stepOp, engineStep_eq_set i h]

theorem exec_withA (i : BitVec 6) (h : stepMod4 i = 0#2) (s : State) :
    exec (decodeStep i) s = .next (s.withA (stepWord i s.regs.a s.regs.b s.regs.c s.regs.d s.x)) :=
  exec_decodeStep_set i (congrArg roles h) s

theorem exec_withD (i : BitVec 6) (h : stepMod4 i = 1#2) (s : State) :
    exec (decodeStep i) s = .next (s.withD (stepWord i s.regs.d s.regs.a s.regs.b s.regs.c s.x)) :=
  exec_decodeStep_set i (congrArg roles h) s

theorem exec_withC (i : BitVec 6) (h : stepMod4 i = 2#2) (s : State) :
    exec (decodeStep i) s = .next (s.withC (stepWord i s.regs.c s.regs.d s.regs.a s.regs.b s.x)) :=
  exec_decodeStep_set i (congrArg roles h) s

theorem exec_withB (i : BitVec 6) (h : stepMod4 i = 3#2) (s : State) :
    exec (decodeStep i) s = .next (s.withB (stepWord i s.regs.b s.regs.c s.regs.d s.regs.a s.x)) :=
  exec_decodeStep_set i (congrArg roles h) s

end Sys2Proof.Machine
end

section
/-! The four step families (43_compression.md section 3, R93 to R96): the corner cases of each round function, and the
sixteen steps of each round, four at a time in the order A, D, C, B of the registers they write. -/

namespace Sys2Proof.Machine

/-! ### The corner cases -/

theorem f1_zero_left (c d : Word) : f1 0#32 c d = d := by
  rw [f1, BitVec.zero_and, BitVec.zero_or, BitVec.not_zero, BitVec.allOnes_and]

theorem f1_allOnes_left (c d : Word) : f1 (BitVec.allOnes 32) c d = c := by
  rw [f1, BitVec.allOnes_and, BitVec.not_allOnes, BitVec.zero_and, BitVec.or_zero]

theorem f2_zero_right (b c : Word) : f2 b c 0#32 = c := by
  rw [f2, BitVec.and_zero, BitVec.zero_or, BitVec.not_zero, BitVec.and_allOnes]

theorem f2_allOnes_right (b c : Word) : f2 b c (BitVec.allOnes 32) = b := by
  rw [f2, BitVec.and_allOnes, BitVec.not_allOnes, BitVec.and_zero, BitVec.or_zero]

theorem f3_comm_left (b c d : Word) : f3 b c d = f3 c b d := by
  rw [f3, f3, BitVec.xor_comm b c]

theorem f3_comm_right (b c d : Word) : f3 b c d = f3 b d c := by
  rw [f3, f3, BitVec.xor_assoc, BitVec.xor_comm c, ← BitVec.xor_assoc]

theorem f3_self_left (b d : Word) : f3 b b d = d := by
  rw [f3, BitVec.xor_self, BitVec.zero_xor]

theorem f4_zero_right (b c : Word) : f4 b c 0#32 = ~~~c := by
  rw [f4, BitVec.not_zero, BitVec.or_allOnes, BitVec.xor_allOnes]

theorem f4_allOnes_left (c d : Word) : f4 (BitVec.allOnes 32) c d = ~~~c := by
  rw [f4, BitVec.allOnes_or, BitVec.xor_allOnes]

theorem f4_zero_allOnes (c : Word) : f4 0#32 c (BitVec.allOnes 32) = c := by
  rw [f4, BitVec.not_allOnes, BitVec.or_self, BitVec.xor_zero]

/-! ### The sixteen steps of each round

Each step is the lemma for the register it writes, at its own index: the tables' entries at that index are the literals
of the statement. -/

/-- Settles O23: the steps 0 to 15, and the corner cases of F1. -/
theorem ffStepsWriteOneRegister : Obligations.FfStepsWriteOneRegister := by
  refine ⟨fun s => ?_, f1_zero_left, f1_allOnes_left, by decide, by decide, by decide, by decide⟩
  exact ⟨exec_withA 0#6 rfl s, exec_withD 1#6 rfl s, exec_withC 2#6 rfl s, exec_withB 3#6 rfl s,
    exec_withA 4#6 rfl s, exec_withD 5#6 rfl s, exec_withC 6#6 rfl s, exec_withB 7#6 rfl s,
    exec_withA 8#6 rfl s, exec_withD 9#6 rfl s, exec_withC 10#6 rfl s, exec_withB 11#6 rfl s,
    exec_withA 12#6 rfl s, exec_withD 13#6 rfl s, exec_withC 14#6 rfl s, exec_withB 15#6 rfl s⟩

/-- Settles O24: the steps 16 to 31, and the corner cases of F2. -/
theorem ggStepsWriteOneRegister : Obligations.GgStepsWriteOneRegister := by
  refine ⟨fun s => ?_, f2_zero_right, f2_allOnes_right, by decide, by decide, by decide⟩
  exact ⟨exec_withA 16#6 rfl s, exec_withD 17#6 rfl s, exec_withC 18#6 rfl s, exec_withB 19#6 rfl s,
    exec_withA 20#6 rfl s, exec_withD 21#6 rfl s, exec_withC 22#6 rfl s, exec_withB 23#6 rfl s,
    exec_withA 24#6 rfl s, exec_withD 25#6 rfl s, exec_withC 26#6 rfl s, exec_withB 27#6 rfl s,
    exec_withA 28#6 rfl s, exec_withD 29#6 rfl s, exec_withC 30#6 rfl s, exec_withB 31#6 rfl s⟩

/-- Settles O25: the steps 32 to 47, and the corner cases of F3. -/
theorem hhStepsWriteOneRegister : Obligations.HhStepsWriteOneRegister := by
  refine ⟨fun s => ?_, f3_comm_left, f3_comm_right, f3_self_left, by decide, by decide, by decide⟩
  exact ⟨exec_withA 32#6 rfl s, exec_withD 33#6 rfl s, exec_withC 34#6 rfl s, exec_withB 35#6 rfl s,
    exec_withA 36#6 rfl s, exec_withD 37#6 rfl s, exec_withC 38#6 rfl s, exec_withB 39#6 rfl s,
    exec_withA 40#6 rfl s, exec_withD 41#6 rfl s, exec_withC 42#6 rfl s, exec_withB 43#6 rfl s,
    exec_withA 44#6 rfl s, exec_withD 45#6 rfl s, exec_withC 46#6 rfl s, exec_withB 47#6 rfl s⟩

/-- Settles O26: the steps 48 to 63, and the corner cases of F4. -/
theorem iiStepsWriteOneRegister : Obligations.IiStepsWriteOneRegister := by
  refine ⟨fun s => ?_, f4_zero_right, f4_allOnes_left, f4_zero_allOnes, fun d => BitVec.xor_allOnes.symm, by decide,
    by decide, by decide⟩
  exact ⟨exec_withA 48#6 rfl s, exec_withD 49#6 rfl s, exec_withC 50#6 rfl s, exec_withB 51#6 rfl s,
    exec_withA 52#6 rfl s, exec_withD 53#6 rfl s, exec_withC 54#6 rfl s, exec_withB 55#6 rfl s,
    exec_withA 56#6 rfl s, exec_withD 57#6 rfl s, exec_withC 58#6 rfl s, exec_withB 59#6 rfl s,
    exec_withA 60#6 rfl s, exec_withD 61#6 rfl s, exec_withC 62#6 rfl s, exec_withB 63#6 rfl s⟩

end Sys2Proof.Machine
end

section
/-! A word with an operand (30_encoding.md, R46 and R56), for the commands that have one: its code, and the words whose
operand is too long. -/

namespace Sys2Proof.Machine

/-- An operand appended to the bits above its field is the base word plus the operand. -/
theorem append_eq_asmWord {a k : Nat} (h : a + k = 16) (p : BitVec a) (x : BitVec k) :
    (p ++ x).cast h = asmWord (p.toNat <<< k) x.toNat := by
  rw [asmWord_shiftLeft_eq_append h p x.isLt, BitVec.ofNat_toNat, BitVec.setWidth_eq]

/-- A word with an operand bit set above the field of its format is ILLEGAL (R46, R51). -/
theorem illegal_of_overlong {w : BitVec 16} {f : Format} (hf : formatOf (opcodeOf w) = some f)
    (hw : w.extractLsb' f.operandWidth (12 - f.operandWidth) ≠ 0#(12 - f.operandWidth)) :
    ∃ r, decodeCommand w = .illegal r := by
  refine (illegal_iff_not_wellFormed w).2 ((wordWellFormed_eq_false_iff w).2 (.inr ⟨f, hf, fun hzero => hw ?_⟩))
  ext i hi
  have hbit := congrArg (·.getLsbD i) hzero
  have h12 : f.operandWidth + i < 12 := by omega
  simpa [h12] using hbit

end Sys2Proof.Machine
end

section
/-! The reads of the digest (44_unpacker.md, R109 and R110): what a read answers in FAULT, and the registers the empty
message leaves. -/

namespace Sys2Proof.Machine

/-- In FAULT a read answers 0 and does nothing else (R125). -/
theorem exec_of_fault_read {w : BitVec 16} {i : Instr} {s : State} (hd : decodeCommand w = .instr i) (hi : i ≠ .rds)
    (hrc : readClass w = true) (hf : s.phase = .fault) : exec i s = .next { s with resp := s.resp ++ [0#32] } := by
  rw [exec_of_fault hd hi hf, hrc]
  rfl

/-! ### The empty message -/

/-- The one padded block of the empty message: the terminator alone. -/
def emptyBlock : Block := Block.zero.setWord 0#4 0x80#32

/-- The digest of the empty message as four words (R108's example). -/
def emptyDigest : Regs := ⟨0xd98c1dd4#32, 0x04b2008f#32, 0x980980e9#32, 0x7e42f8ec#32⟩

theorem compress_iv_emptyBlock : compress iv emptyBlock = emptyDigest := by
  decide +kernel

theorem pad_initBody (s : State) : (writeLength (terminate (initBody s))).x = emptyBlock := by
  simp only [writeLength_x, terminate_x, terminate_nb, initBody_x, initBody_nb]
  decide +kernel

theorem finalBody_initBody_regs (s : State) : (finalBody (initBody s)).regs = emptyDigest := by
  rw [finalBody_of_room (by simp), ← compress_iv_emptyBlock, ← pad_initBody s]
  rfl

/-- INIT and FINAL leave DONE with the digest of the empty message. -/
theorem done_emptyDigest_of_init_final {s t u : State} (hf : s.phase ≠ .fault) (ht : exec .init s = .next t)
    (hu : exec .final t = .next u) : u.phase = .done ∧ u.regs = emptyDigest := by
  cases (exec_init_of_not_fault hf).symm.trans ht
  cases (exec_final_of_absorb (initBody_phase s)).symm.trans hu
  exact ⟨finalBody_phase _, finalBody_initBody_regs s⟩

end Sys2Proof.Machine
end

section
/-! RDW (44_unpacker.md section 2, R109). -/

namespace Sys2Proof.Machine

theorem encode_rdw (r : BitVec 2) : encode (.rdw r) = .cmd (asmWord 0x4000 r.toNat) :=
  congrArg Code.cmd (append_eq_asmWord rfl 0x1000#14 r)

/-- RDW where R61 permits it. -/
theorem exec_rdw_of_permitted {s : State} {r : BitVec 2} {v : Word} (h : s.phase = .absorb ∨ s.phase = .done)
    (hv : regNumbered s.regs r.toNat = v) : exec (.rdw r) s = .next { s with resp := s.resp ++ [v] } := by
  rw [← hv]
  exact exec_of_permitted ((permitted_rdw_iff r _).2 (by simpa using h))

/-- Settles O19: RDW's body in ABSORB and DONE, BAD_PHASE in IDLE, the FAULT lock, and register A of the empty
digest. -/
theorem rdwRespondsARegister : Obligations.RdwRespondsARegister := by
  refine ⟨encode_rdw, fun s r => ⟨fun h => exec_rdw_of_permitted h rfl, fun h => ?_, fun h => ?_⟩, fun w ho => ?_,
    fun s t u hf ht hu => ?_⟩
  · exact exec_of_refused_read (decodeCommand_rdw r) (readClass_rdw r) (by simp [h, permitted])
  · exact exec_of_fault_read (decodeCommand_rdw r) nofun (readClass_rdw r) h
  · exact illegal_of_overlong (f := .r) (by rw [ho]; rfl)
  · obtain ⟨hdone, hregs⟩ := done_emptyDigest_of_init_final hf ht hu
    exact exec_rdw_of_permitted (.inr hdone) (by rw [hregs]; rfl)

end Sys2Proof.Machine
end

section
/-! RDB (44_unpacker.md section 3, R110): byte j of the digest is a lane of one register. -/

namespace Sys2Proof.Machine

theorem encode_rdb (j : BitVec 4) : encode (.rdb j) = .cmd (asmWord 0x5000 j.toNat) :=
  congrArg Code.cmd (append_eq_asmWord rfl 0x500#12 j)

/-! ### The byte -/

theorem digReg_toNat (j : BitVec 4) : (digReg j).toNat = j.toNat / 4 := by
  have := j.isLt
  rw [digReg, BitVec.extractLsb'_toNat, Nat.shiftRight_eq_div_pow]
  omega

theorem digShift_eq (j : BitVec 4) : digShift j = 8 * (j.toNat % 4) := by simp [digShift]

/-- Masking to the low eight bits is cutting to a byte and extending it again. -/
theorem setWidth_setWidth_and_byteMask (v : Word) : ((v &&& 0xFF#32).setWidth 8).setWidth 32 = v &&& 0xFF#32 := by
  apply BitVec.eq_of_toNat_eq
  have hlt : (v &&& 0xFF#32).toNat < 2 ^ 8 := by
    rw [BitVec.toNat_and]
    exact Nat.and_lt_two_pow _ (by decide)
  simp only [BitVec.toNat_setWidth]
  omega

/-- A digest byte as R110 writes it, by register number and lane. -/
theorem unpackByte_setWidth (g : Regs) (j : BitVec 4) : (unpackByte g j).setWidth 32 =
    (regNumbered g (j.toNat / 4) >>> (8 * (j.toNat % 4))) &&& 0xFF#32 := by
  rw [unpackByte, setWidth_setWidth_and_byteMask, Regs.word_eq, digReg_toNat, digShift_eq]

/-! ### The command -/

/-- RDB where R61 permits it. -/
theorem exec_rdb_of_done {s : State} {j : BitVec 4} {v : Word} (h : s.phase = .done)
    (hv : (unpackByte s.regs j).setWidth 32 = v) : exec (.rdb j) s = .next { s with resp := s.resp ++ [v] } := by
  rw [← hv]
  exact exec_of_permitted ((permitted_rdb_iff j _).2 (by simp [h]))

/-- Settles O20: RDB's body in DONE, BAD_PHASE in IDLE and ABSORB, the FAULT lock, and the first and the last byte of
the empty digest. -/
theorem rdbRespondsADigestByte : Obligations.RdbRespondsADigestByte := by
  refine ⟨encode_rdb, fun s j => ⟨fun h => exec_rdb_of_done h (unpackByte_setWidth _ j), fun h => ?_, fun h => ?_⟩,
    fun w ho => ?_, fun s t u hf ht hu => ?_⟩
  · exact exec_of_refused_read (decodeCommand_rdb j) (readClass_rdb j)
      (by rcases h with h | h <;> simp [h, permitted])
  · exact exec_of_fault_read (decodeCommand_rdb j) nofun (readClass_rdb j) h
  · exact illegal_of_overlong (f := .j) (by rw [ho]; rfl)
  · obtain ⟨hdone, hregs⟩ := done_emptyDigest_of_init_final hf ht hu
    exact ⟨exec_rdb_of_done hdone (by rw [hregs]; rfl), exec_rdb_of_done hdone (by rw [hregs]; rfl)⟩

end Sys2Proof.Machine
end

section
/-! RDH (45_hex.md section 2, R115): hex digit k of the digest is a nibble of digest byte `k / 2`. -/

namespace Sys2Proof.Machine

theorem encode_rdh (k : BitVec 5) : encode (.rdh k) = .cmd (asmWord 0x6000 k.toNat) :=
  congrArg Code.cmd (append_eq_asmWord rfl 0x300#11 k)

/-! ### The digit -/

theorem hexByteIndex_toNat (k : BitVec 5) : (hexByteIndex k).toNat = k.toNat / 2 := by
  have := k.isLt
  rw [hexByteIndex, BitVec.extractLsb'_toNat, Nat.shiftRight_eq_div_pow]
  omega

theorem hexHighNibble_iff (k : BitVec 5) : hexHighNibble k = true ↔ k.toNat % 2 = 0 := by
  rw [hexHighNibble, BitVec.getLsbD, Nat.testBit_zero]
  simp

theorem highNibble_setWidth (v : Byte) : (highNibble v).setWidth 32 = v.setWidth 32 >>> 4 := by
  apply BitVec.eq_of_toNat_eq
  have := v.isLt
  simp only [highNibble, BitVec.toNat_setWidth, BitVec.extractLsb'_toNat, BitVec.toNat_ushiftRight,
    Nat.shiftRight_eq_div_pow]
  omega

theorem lowNibble_setWidth (v : Byte) : (lowNibble v).setWidth 32 = v.setWidth 32 &&& 0xF#32 := by
  apply BitVec.eq_of_toNat_eq
  have hmask : (v.setWidth 32 &&& 0xF#32).toNat = (v.setWidth 32).toNat % 2 ^ 4 := Nat.and_two_pow_sub_one_eq_mod _ 4
  rw [hmask]
  simp only [lowNibble, BitVec.toNat_setWidth, BitVec.extractLsb'_toNat, Nat.shiftRight_zero]
  omega

/-- The upper-case code of a digit (R114), in the 32 bits of a response. -/
theorem digitCode_upper_setWidth (n : BitVec 4) : (digitCode .upper n).setWidth 32 =
    if n.setWidth 32 ≤ 9#32 then 0x30#32 + n.setWidth 32 else 0x37#32 + n.setWidth 32 := by
  revert n
  decide

/-- The character of RDH as R115 writes it, by register number, lane and nibble. -/
theorem hexChar_setWidth (g : Regs) (k : BitVec 5) :
    let byte := (regNumbered g (k.toNat / 8) >>> (8 * (k.toNat / 2 % 4))) &&& 0xFF#32
    let nibble := if k.toNat % 2 = 0 then byte >>> 4 else byte &&& 0xF#32
    (hexChar g k).setWidth 32 = if nibble ≤ 9#32 then 0x30#32 + nibble else 0x37#32 + nibble := by
  intro byte nibble
  have hbyte : (unpackByte g (hexByteIndex k)).setWidth 32 = byte := by
    rw [unpackByte_setWidth, hexByteIndex_toNat, Nat.div_div_eq_div_mul]
  have hnibble : (if hexHighNibble k then highNibble (unpackByte g (hexByteIndex k))
      else lowNibble (unpackByte g (hexByteIndex k))).setWidth 32 = nibble := by
    simp only [hexHighNibble_iff, nibble, ← hbyte, ← highNibble_setWidth, ← lowNibble_setWidth]
    exact apply_ite _ _ _ _
  rw [← hnibble]
  exact digitCode_upper_setWidth _

/-- The 32 characters of the empty digest, read one by one (R115's example). -/
theorem hexChar_emptyDigest (k : BitVec 5) :
    hexChar emptyDigest k = (utf8Bytes "D41D8CD98F00B204E9800998ECF8427E").getD k.toNat 0#8 := by
  revert k
  decide +kernel

/-! ### The command -/

/-- RDH where R61 permits it. -/
theorem exec_rdh_of_done {s : State} {k : BitVec 5} {v : Word} (h : s.phase = .done)
    (hv : (hexChar s.regs k).setWidth 32 = v) : exec (.rdh k) s = .next { s with resp := s.resp ++ [v] } := by
  rw [← hv]
  exact exec_of_permitted ((permitted_rdh_iff k _).2 (by simp [h]))

/-- Settles O21: RDH's body in DONE, BAD_PHASE in IDLE and ABSORB, the FAULT lock, and the characters of the empty
digest. -/
theorem rdhRespondsAHexDigit : Obligations.RdhRespondsAHexDigit := by
  refine ⟨encode_rdh, fun s k => ⟨fun h => exec_rdh_of_done h (hexChar_setWidth _ k), fun h => ?_, fun h => ?_⟩,
    fun w ho => ?_, fun s t u hf ht hu => ?_⟩
  · exact exec_of_refused_read (decodeCommand_rdh k) (readClass_rdh k)
      (by rcases h with h | h <;> simp [h, permitted])
  · exact exec_of_fault_read (decodeCommand_rdh k) nofun (readClass_rdh k) h
  · exact illegal_of_overlong (f := .k) (by rw [ho]; rfl)
  · obtain ⟨hdone, hregs⟩ := done_emptyDigest_of_init_final hf ht hu
    have hread (k : BitVec 5) := exec_rdh_of_done hdone (by rw [hregs, hexChar_emptyDigest k])
    exact ⟨hread 0#5, hread 1#5, hread 31#5, hread⟩

end Sys2Proof.Machine
end

section
/-! Fault entry (60_exceptions.md, R121 and R124): outside FAULT a command word takes ILLEGAL_CMD, takes BAD_PHASE, or
runs the body of a permitted command, and no body enters FAULT or writes ECODE. -/

namespace Sys2Proof.Machine

/-! ### The bodies -/

@[simp] theorem commandBody_ecode (i : Instr) (s : State) : (commandBody i s).ecode = s.ecode := by
  cases i with
  | pushb b => exact pushBody_ecode b s
  | final => exact finalBody_ecode s
  | _ => rfl

theorem commandBody_phase_ne_fault (i : Instr) {s : State} (hf : s.phase ≠ .fault) :
    (commandBody i s).phase ≠ .fault := by
  cases i with
  | init => exact nofun
  | pushb b => exact fun h => hf ((pushBody_phase b s).symm.trans h)
  | final => exact nofun
  | _ => exact hf

/-! ### A command word outside FAULT -/

/-- Everything a command word can do outside FAULT, by what it decodes to and R61. -/
theorem runWord_cases_of_not_fault {w : BitVec 16} {s t : State} (h : runWord w s = .next t)
    (hf : s.phase ≠ .fault) :
    (∃ r, decodeCommand w = .illegal r ∧ t = raiseFault .illegalCmd (respondZeroIf (readClass w) s)) ∨
    (∃ i, decodeCommand w = .instr i ∧ permitted i s.phase = false ∧
      t = raiseFault .badPhase (respondZeroIf (readClass w) s)) ∨
    (∃ i, decodeCommand w = .instr i ∧ permitted i s.phase = true ∧ t = commandBody i s) := by
  cases hd : decodeCommand w with
  | illegal r =>
    rw [runWord_of_illegal hd, illegalCommand_of_not_fault hf] at h
    exact .inl ⟨r, rfl, (Host.Outcome.next.inj h).symm⟩
  | instr i =>
    rw [runWord_of_instr hd] at h
    cases hp : permitted i s.phase with
    | false =>
      rw [exec_of_not_permitted hd hf hp] at h
      exact .inr (.inl ⟨i, rfl, hp, (Host.Outcome.next.inj h).symm⟩)
    | true =>
      rw [exec_of_permitted hp] at h
      exact .inr (.inr ⟨i, rfl, hp, (Host.Outcome.next.inj h).symm⟩)

/-! ### R121 -/

theorem cause_code_ne_three (c : Cause) : c.code ≠ 3#2 := by
  cases c <;> decide

/-- ILLEGAL_CMD is taken by the ILLEGAL words alone. -/
theorem runWord_ecode_eq_illegalCmd_iff {w : BitVec 16} {s t : State} (h : runWord w s = .next t)
    (hf : s.phase ≠ .fault) (he : s.ecode = .none) :
    t.ecode = .illegalCmd ↔ ∃ r, decodeCommand w = .illegal r := by
  rcases runWord_cases_of_not_fault h hf with ⟨r, hd, rfl⟩ | ⟨i, hd, -, rfl⟩ | ⟨i, hd, -, rfl⟩
  · simp [hd]
  · simp [hd]
  · simp [hd, he]

/-- BAD_PHASE is taken by the commands R61 does not permit alone. -/
theorem runWord_ecode_eq_badPhase_iff {w : BitVec 16} {s t : State} (h : runWord w s = .next t)
    (hf : s.phase ≠ .fault) (he : s.ecode = .none) :
    t.ecode = .badPhase ↔ ∃ i, decodeCommand w = .instr i ∧ permitted i s.phase = false := by
  rcases runWord_cases_of_not_fault h hf with ⟨r, hd, rfl⟩ | ⟨i, hd, hp, rfl⟩ | ⟨i, hd, hp, rfl⟩
  · simp [hd]
  · simp [hd, hp]
  · simp [hd, hp, he]

/-- The "no" cells of R61 outside FAULT, command by command: INIT and RDS have none. -/
theorem not_permitted_iff {w : BitVec 16} {i : Instr} {p : Phase} (hd : decodeCommand w = .instr i)
    (hf : p ≠ .fault) : permitted i p = false ↔
      ((((∃ b, i = .pushb b) ∨ i = .final) ∧ (p = .idle ∨ p = .done)) ∨
       ((∃ r, i = .rdw r) ∧ p = .idle) ∨
       (((∃ j, i = .rdb j) ∨ (∃ k, i = .rdh k)) ∧ (p = .idle ∨ p = .absorb))) := by
  rcases decodeCommand_cases w with ⟨-, e⟩ | ⟨b, -, e⟩ | ⟨-, e⟩ | ⟨r, -, e⟩ | ⟨j, -, e⟩ | ⟨k, -, e⟩ | ⟨-, e⟩ |
    ⟨why, e⟩ <;> cases hd.symm.trans e
  all_goals cases p <;> simp [permitted] at hf ⊢

/-- Settles O42: the invariant makes ECODE 0 before the word, so a cause after it is the one the word took. -/
theorem faultCauses : Obligations.FaultCauses := by
  refine ⟨⟨rfl, rfl, rfl, cause_code_ne_three⟩, fun s t w rest hinv heng hf hport h => ?_⟩
  have he : s.ecode = .none := not_ne_iff.1 (mt hinv.fault_iff.2 hf)
  rw [step_of_word heng hport] at h
  refine ⟨runWord_ecode_eq_illegalCmd_iff h hf he, (runWord_ecode_eq_badPhase_iff h hf he).trans ?_⟩
  exact exists_congr fun i => and_congr_right fun hd => not_permitted_iff hd hf

/-! ### R124 -/

/-- Settles O43: of what a word can do outside FAULT, only the two fault entries reach FAULT, and each is its fields. -/
theorem faultEntryIsPrecise : Obligations.FaultEntryIsPrecise := by
  intro s t w rest heng hf hport h ht
  rw [step_of_word heng hport] at h
  rcases runWord_cases_of_not_fault h hf with ⟨r, hd, rfl⟩ | ⟨i, hd, -, rfl⟩ | ⟨i, -, -, rfl⟩
  · rw [hd, respondZeroIf_eq, raiseFault]
  · rw [hd, respondZeroIf_eq, raiseFault]
  · exact absurd ht (commandBody_phase_ne_fault i hf)

end Sys2Proof.Machine
end

section
/-! The FAULT lock (60_exceptions.md, R125 and R126): in FAULT the RDS word responds STATUS, every other word does nothing
but give the zero response of the read class, and only the reset event leaves FAULT. -/

namespace Sys2Proof.Machine

theorem runWord_rds (s : State) : runWord 0x7000#16 s = .next (respond (status s) s) := by
  rw [runWord_of_instr decodeCommand_rds, exec_rds]

theorem eq_of_decodeCommand_rds {w : BitVec 16} (hd : decodeCommand w = .instr .rds) : w = 0x7000#16 := by
  rcases decodeCommand_cases w with ⟨-, e⟩ | ⟨b, -, e⟩ | ⟨-, e⟩ | ⟨r, -, e⟩ | ⟨j, -, e⟩ | ⟨k, -, e⟩ | ⟨hw, e⟩ |
    ⟨why, e⟩ <;> cases hd.symm.trans e
  exact hw

/-- The lock for every word but RDS, a command or ILLEGAL. -/
theorem runWord_of_fault {w : BitVec 16} {s : State} (hw : w ≠ 0x7000#16) (hf : s.phase = .fault) :
    runWord w s = .next (respondZeroIf (readClass w) s) := by
  cases hd : decodeCommand w with
  | illegal r => rw [runWord_of_illegal hd, illegalCommand_of_fault hf]
  | instr i =>
    have hi : i ≠ .rds := fun hi => hw (eq_of_decodeCommand_rds (hi ▸ hd))
    rw [runWord_of_instr hd, exec_of_fault hd hi hf]

/-- Settles O44: the lock for the other words; the fields of STATUS for RDS. -/
theorem faultLocksTheCore : Obligations.FaultLocksTheCore := by
  intro s w rest hf heng hport
  rw [step_of_word heng hport]
  refine ⟨fun hw hrc => ?_, fun hw hrc => ?_, ?_⟩
  · rw [runWord_of_fault (s := { s with port := rest }) hw hf, hrc]
    rfl
  · rw [runWord_of_fault (s := { s with port := rest }) hw hf, hrc]
    rfl
  · rintro rfl
    refine ⟨_, runWord_rds _, ?_, status_ecodeField _⟩
    rw [status_phaseField, phase_code_eq_three_iff]
    exact hf

/-- A command word keeps FAULT and the recorded cause. -/
theorem runWord_keeps_fault {w : BitVec 16} {s t : State} (h : runWord w s = .next t) (hf : s.phase = .fault) :
    t.phase = .fault ∧ t.ecode = s.ecode := by
  by_cases hw : w = 0x7000#16
  · rw [hw, runWord_rds] at h
    cases h
    exact ⟨hf, rfl⟩
  · rw [runWord_of_fault hw hf] at h
    cases h
    exact ⟨(respondZeroIf_phase _ s).trans hf, respondZeroIf_ecode _ s⟩

/-- Settles O45: of the events a step can take, only the reset event writes PHASE or ECODE in FAULT. -/
theorem onlyResetLeavesFault : Obligations.OnlyResetLeavesFault := by
  refine ⟨fun s t hf heng hport h => ?_, fun s rest _ heng hport => ⟨_, step_of_reset heng hport, rfl, rfl⟩⟩
  rcases step_cases h with ⟨op, hop, -⟩ | ⟨-, -, rfl⟩ | ⟨rest, -, hp, -⟩ | ⟨rest, -, -, rfl⟩ | ⟨w, rest, -, -, hrun⟩
  · exact absurd (heng.symm.trans hop) nofun
  · exact ⟨hf, rfl⟩
  · exact absurd (congrArg List.head? hp) hport
  · exact ⟨hf, rfl⟩
  · exact runWord_keeps_fault (s := { s with port := rest }) hrun hf

end Sys2Proof.Machine
end

section
/-! Encoding (30_encoding.md sections 2 to 4 and 7, R45 to R49 and R55): decoding and encoding are inverse, command by
command and step by step. -/

namespace Sys2Proof.Machine

/-- A command's code is its pattern over the operand; a step's code is its index, where `decodeStep` has its entry. -/
theorem decode_encode (i : Instr) : decode (encode i) = .instr i := by
  cases i with
  | init => exact decodeCommand_init
  | pushb b => exact decodeCommand_pushb b
  | final => exact decodeCommand_final
  | rdw r => exact decodeCommand_rdw r
  | rdb j => exact decodeCommand_rdb j
  | rdh k => exact decodeCommand_rdh k
  | rds => exact decodeCommand_rds
  | _ => rfl

/-- Settles O1, command by command and step by step. -/
theorem decodeOfEncodeIsIdentity : Obligations.DecodeOfEncodeIsIdentity := decode_encode

theorem encode_of_decodeCommand {w : BitVec 16} {i : Instr} (h : decodeCommand w = .instr i) : encode i = .cmd w := by
  rcases decodeCommand_cases w with ⟨rfl, e⟩ | ⟨b, rfl, e⟩ | ⟨rfl, e⟩ | ⟨r, rfl, e⟩ | ⟨j, rfl, e⟩ | ⟨k, rfl, e⟩ |
    ⟨rfl, e⟩ | ⟨why, e⟩ <;> cases h.symm.trans e <;> rfl

/-- Settles O2: a command word is the code of its command, and a step index the code of its micro-operation. -/
theorem encodeOfDecodeIsIdentity : Obligations.EncodeOfDecodeIsIdentity := by
  intro c i h
  cases c with
  | cmd w => exact encode_of_decodeCommand h
  | step n =>
    cases h
    exact encode_decodeStep n

/-- Settles O5: each word is the table's code of its instruction. -/
theorem sampleWordsDecode : Obligations.SampleWordsDecode := by
  refine ⟨decode_encode .init, decode_encode (.pushb 0x61#8), decode_encode .final, decode_encode (.rdw 3#2),
    decode_encode (.rdb 15#4), decode_encode (.rdh 31#5), decode_encode .rds, rfl, rfl, rfl, rfl, rfl, rfl, rfl, rfl⟩

end Sys2Proof.Machine
end

section
/-! The assembler (30_encoding.md section 8, R56): a line in range gives the base word plus the operand, which decodes
to the command; a line out of range gives nothing. -/

namespace Sys2Proof.Machine

theorem assemble_of_refused {l : AsmLine} (h : l.wellFormed = false) : assemble l = none := by
  exact if_neg (h ▸ Bool.false_ne_true)

/-! ### The word column of R56 decodes to its command -/

theorem decodeCommand_asmWord_pushb {n : Nat} (hn : n < 2 ^ 8) :
    decodeCommand (asmWord 0x2000 n) = .instr (.pushb (BitVec.ofNat 8 n)) :=
  (congrArg decodeCommand (asmWord_shiftLeft_eq_append rfl 0x20#8 hn)).trans (decodeCommand_pushb _)

theorem decodeCommand_asmWord_rdw {n : Nat} (hn : n < 2 ^ 2) :
    decodeCommand (asmWord 0x4000 n) = .instr (.rdw (BitVec.ofNat 2 n)) :=
  (congrArg decodeCommand (asmWord_shiftLeft_eq_append rfl 0x1000#14 hn)).trans (decodeCommand_rdw _)

theorem decodeCommand_asmWord_rdb {n : Nat} (hn : n < 2 ^ 4) :
    decodeCommand (asmWord 0x5000 n) = .instr (.rdb (BitVec.ofNat 4 n)) :=
  (congrArg decodeCommand (asmWord_shiftLeft_eq_append rfl 0x500#12 hn)).trans (decodeCommand_rdb _)

theorem decodeCommand_asmWord_rdh {n : Nat} (hn : n < 2 ^ 5) :
    decodeCommand (asmWord 0x6000 n) = .instr (.rdh (BitVec.ofNat 5 n)) :=
  (congrArg decodeCommand (asmWord_shiftLeft_eq_append rfl 0x300#11 hn)).trans (decodeCommand_rdh _)

/-- Settles O6: in range, the line's word decodes to its command; out of range, the line is not well formed. -/
theorem assembledLinesDecode : Obligations.AssembledLinesDecode := by
  refine ⟨fun n h => ⟨_, if_pos (decide_eq_true h), ?_⟩, fun n h => ⟨_, if_pos (decide_eq_true h), ?_⟩,
    fun n h => ⟨_, if_pos (decide_eq_true h), ?_⟩, fun n h => ⟨_, if_pos (decide_eq_true h), ?_⟩,
    fun c h => ⟨_, if_pos (decide_eq_true h), ?_⟩, ⟨rfl, rfl, rfl, rfl⟩, fun n h => if_pos (decide_eq_true h), rfl,
    rfl, rfl, fun n h => ?_, fun n h => ?_, fun n h => ?_, fun n h => ?_, fun n h => ?_⟩
  · exact decodeCommand_asmWord_pushb (Nat.lt_succ_of_le h)
  · exact decodeCommand_asmWord_rdw (Nat.lt_succ_of_le h)
  · exact decodeCommand_asmWord_rdb (Nat.lt_succ_of_le h)
  · exact decodeCommand_asmWord_rdh (Nat.lt_succ_of_le h)
  · exact decodeCommand_asmWord_pushb (by omega)
  all_goals exact assemble_of_refused (decide_eq_false (Nat.not_le.2 h))

end Sys2Proof.Machine
end

section
/-! One step of the core (40_control.md section 1, 43_compression.md section 6, 60_exceptions.md section 7): a command
word, a micro-operation, the reset event, a taken response, or waiting. -/

namespace Sys2Proof.Machine

/-- Settles O7: the port's word is taken, decoded and run. -/
theorem stepRunsTheDecodedCommand : Obligations.StepRunsTheDecodedCommand := by
  intro s w rest i heng hport hd
  rw [step_of_word heng hport, runWord_of_instr hd]

/-- Settles O8: the step is the micro-operation and then the sequencer, which chains after index 63. -/
theorem stepRunsTheSequencedMicroOperation : Obligations.StepRunsTheSequencedMicroOperation := by
  intro s t op heng h
  cases (exec_decodeStep op.index s).symm.trans h
  rw [step_of_engine heng]
  rfl

/-- Settles O47: the reset event writes the control state and the response port. -/
theorem resetEventSetsTheControlState : Obligations.ResetEventSetsTheControlState :=
  fun _ _ heng hport => ⟨_, step_of_reset heng hport, rfl, rfl, rfl, rfl, rfl, rfl⟩

/-- Settles O48: each field as the reset state is written. -/
theorem resetStateIsIdle : Obligations.ResetStateIsIdle := ⟨rfl, rfl, rfl, rfl, rfl, rfl, rfl⟩

/-- Settles O49: waiting is the identity, and taking a response drops the head of the queue, if it has one. -/
theorem portsWithoutACommand : Obligations.PortsWithoutACommand := by
  refine ⟨fun s => step_of_no_event, fun s rest v vs heng hport hresp => ?_, fun s rest heng hport hresp => ?_⟩
  · rw [step_of_collect heng hport, collectResponse, hresp]
    rfl
  · rw [step_of_collect heng hport, collectResponse, hresp]
    rfl

/-- Settles O53: INIT's body outside FAULT overwrites all the fields the two states may differ in. -/
theorem initErasesTheOldContext : Obligations.InitErasesTheOldContext := by
  intro s u hs hu hecode heng hport hresp hdraws
  rw [exec_init_of_not_fault hs, exec_init_of_not_fault hu, initBody, initBody, hecode, heng, hport, hresp, hdraws]

end Sys2Proof.Machine
end

section
/-! What a command word leaves (40_control.md sections 1 and 4, 20_memory.md section 4): the fields no word writes,
and the phase and the cause as functions of the word and the old phase and cause. -/

namespace Sys2Proof.Machine

/-- No command word touches the sequencer, the port's later events or the count of resets (R38, R41). -/
theorem runWord_frame {w : BitVec 16} {s t : State} (h : runWord w s = .next t) :
    t.engine = s.engine ∧ t.port = s.port ∧ t.draws = s.draws := by
  rcases runWord_cases h with ⟨-, rfl⟩ | ⟨-, -, rfl⟩ | ⟨-, -, rfl⟩ | ⟨i, -, -, -, -, rfl⟩ | ⟨-, -, rfl⟩ |
    ⟨b, -, -, rfl⟩ | ⟨-, -, rfl⟩ | ⟨v, -, -, -, rfl⟩ <;> simp

/-- Settles O33: a command word leaves the sequencer as it is, and no other port event starts a block. -/
theorem noCommandLeavesABlockInProgress : Obligations.NoCommandLeavesABlockInProgress := by
  intro s t heng h
  rcases step_cases h with ⟨op, hop, -⟩ | ⟨-, -, rfl⟩ | ⟨rest, -, -, rfl⟩ | ⟨rest, -, -, rfl⟩ | ⟨w, rest, -, -, hrun⟩
  · exact absurd (heng.symm.trans hop) nofun
  · exact heng
  · rfl
  · exact heng
  · exact (runWord_frame hrun).1.trans heng

/-! ### The phase (R64) -/

theorem nextPhase_fault (w : BitVec 16) : nextPhase .fault w = .fault := by
  cases hd : decodeCommand w <;> simp [nextPhase]

theorem nextPhase_of_illegal {w : BitVec 16} {r : Reject} (hd : decodeCommand w = .illegal r) (p : Phase) :
    nextPhase p w = .fault := by
  cases p <;> simp [nextPhase, hd]

/-- The phase a command's body leaves: INIT and FINAL go on, the others stay. -/
def bodyPhase (i : Instr) (p : Phase) : Phase :=
  match i with
  | .init => .absorb
  | .final => .done
  | _ => p

theorem commandBody_phase (i : Instr) (s : State) : (commandBody i s).phase = bodyPhase i s.phase := by
  cases i with
  | pushb b => exact pushBody_phase b s
  | _ => rfl

/-- The rows of R64 outside FAULT: where R61 permits the command its body's phase, else FAULT. -/
theorem nextPhase_of_instr {w : BitVec 16} {i : Instr} {p : Phase} (hd : decodeCommand w = .instr i)
    (hf : p ≠ .fault) : nextPhase p w = if permitted i p then bodyPhase i p else .fault := by
  rcases decodeCommand_cases w with ⟨-, e⟩ | ⟨b, -, e⟩ | ⟨-, e⟩ | ⟨r, -, e⟩ | ⟨j, -, e⟩ | ⟨k, -, e⟩ | ⟨-, e⟩ |
    ⟨why, e⟩ <;> cases hd.symm.trans e
  all_goals cases p <;> simp [nextPhase, permitted, bodyPhase, e] at hf ⊢

theorem runWord_phase {w : BitVec 16} {s t : State} (h : runWord w s = .next t) : t.phase = nextPhase s.phase w := by
  by_cases hf : s.phase = .fault
  · rw [hf, nextPhase_fault, (runWord_keeps_fault h hf).1]
  rcases runWord_cases_of_not_fault h hf with ⟨r, hd, rfl⟩ | ⟨i, hd, hp, rfl⟩ | ⟨i, hd, hp, rfl⟩
  · exact (nextPhase_of_illegal hd _).symm
  · rw [nextPhase_of_instr hd hf, hp]
    rfl
  · rw [nextPhase_of_instr hd hf, hp, commandBody_phase]
    rfl

/-- Settles O11: the step is the word's run, and the run goes by the table. -/
theorem phaseTransitions : Obligations.PhaseTransitions := by
  intro s t w rest heng hport h
  rw [step_of_word heng hport] at h
  exact runWord_phase (s := { s with port := rest }) h

end Sys2Proof.Machine
end

section
/-! Faults depend on no data (60_exceptions.md sections 1 and 3): PHASE and ECODE after a word are functions of the
word and of PHASE and ECODE before it, and in FAULT so are the responses. -/

namespace Sys2Proof.Machine

/-- ECODE after a command word, by R60: FAULT records nothing, an ILLEGAL word cause 1, a "no" of R61 cause 2. -/
def nextCause (p : Phase) (e : Cause) (w : BitVec 16) : Cause :=
  if p = .fault then e
  else match decodeCommand w with
    | .illegal _ => .illegalCmd
    | .instr i => if permitted i p then e else .badPhase

theorem runWord_ecode {w : BitVec 16} {s t : State} (h : runWord w s = .next t) :
    t.ecode = nextCause s.phase s.ecode w := by
  by_cases hf : s.phase = .fault
  · rw [nextCause, if_pos hf, (runWord_keeps_fault h hf).2]
  rw [nextCause, if_neg hf]
  rcases runWord_cases_of_not_fault h hf with ⟨r, hd, rfl⟩ | ⟨i, hd, hp, rfl⟩ | ⟨i, hd, hp, rfl⟩
  · simp [hd]
  · simp [hd, hp]
  · simp [hd, hp]

/-- Settles O46: PUSHB and FINAL run their bodies in ABSORB, and two runs of one word compute the same functions of
PHASE and ECODE. -/
theorem nothingStopsTheCore : Obligations.NothingStopsTheCore := by
  refine ⟨step_next, fun s b h => ⟨_, exec_pushb_of_absorb b h, (pushBody_phase b s).trans h, pushBody_ecode b s⟩,
    fun s h => ⟨_, exec_final_of_absorb h, finalBody_phase s, finalBody_ecode s⟩,
    fun s u s' u' w rest qest hs hu hphase hecode hps hpu hs' hu' => ?_⟩
  rw [step_of_word hs hps] at hs'
  rw [step_of_word hu hpu] at hu'
  rw [runWord_phase hs', runWord_phase hu', runWord_ecode hs', runWord_ecode hu']
  simp [hphase, hecode]

/-- The responses in FAULT: STATUS to the RDS word, 0 to the other reads. -/
theorem runWord_resp_of_fault {w : BitVec 16} {s t : State} (h : runWord w s = .next t) (hf : s.phase = .fault) :
    t.resp = s.resp ++ if w = 0x7000#16 then [status s] else if readClass w then [0#32] else [] := by
  by_cases hw : w = 0x7000#16
  · subst hw
    cases (runWord_rds s).symm.trans h
    rfl
  · cases (runWord_of_fault hw hf).symm.trans h
    rw [if_neg hw, respondZeroIf_resp]

theorem runWord_lovf_of_fault {w : BitVec 16} {s t : State} (h : runWord w s = .next t) (hf : s.phase = .fault) :
    t.lovf = s.lovf := by
  by_cases hw : w = 0x7000#16
  · subst hw
    cases (runWord_rds s).symm.trans h
    rfl
  · cases (runWord_of_fault hw hf).symm.trans h
    exact respondZeroIf_lovf _ _

theorem status_congr {s u : State} (hphase : s.phase = u.phase) (hlovf : s.lovf = u.lovf) (hecode : s.ecode = u.ecode) :
    status s = status u := by
  rw [status_eq_append, status_eq_append, hphase, hlovf, hecode]

/-- Settles O54: STATUS, the one response in FAULT that is not 0, shows PHASE, LOVF and ECODE only. -/
theorem faultHidesTheDatapath : Obligations.FaultHidesTheDatapath := by
  intro s u s' u' w rest hfs hfu hs hu hecode hlovf hresp hps hpu hs' hu'
  rw [step_of_word hs hps] at hs'
  rw [step_of_word hu hpu] at hu'
  obtain ⟨hphase_s, hecode_s⟩ := runWord_keeps_fault hs' hfs
  obtain ⟨hphase_u, hecode_u⟩ := runWord_keeps_fault hu' hfu
  refine ⟨?_, hphase_s, hphase_u, ?_, ?_⟩
  · rw [runWord_resp_of_fault hs' hfs, runWord_resp_of_fault hu' hfu,
      status_congr (s := { s with port := rest }) (u := { u with port := rest }) (hfs.trans hfu.symm) hlovf hecode]
    exact congrArg (· ++ _) hresp
  · exact hecode_s.trans (hecode.trans hecode_u.symm)
  · exact (runWord_lovf_of_fault hs' hfs).trans (hlovf.trans (runWord_lovf_of_fault hu' hfu).symm)

end Sys2Proof.Machine
end

section
/-! The invariant (10_state.md sections 3 and 5, 20_memory.md section 2), and what a PUSHB does to the buffer byte by
byte (41_packer.md section 2). -/

namespace Sys2Proof.Machine

/-! ### PUSHB, byte by byte -/

theorem pushBody_x_of_full {s : State} (b : Byte) (h : bufAddress s.nb = 63#6) : (pushBody b s).x = Block.zero := by
  rw [pushBody, if_pos h, blockOp_x]

theorem pushBody_x_of_room {s : State} (b : Byte) (h : bufAddress s.nb ≠ 63#6) :
    (pushBody b s).x = orByte s.x (bufAddress s.nb) b := by
  rw [pushBody, if_neg h, storeByte_x]

theorem pushBody_regs_of_room {s : State} (b : Byte) (h : bufAddress s.nb ≠ 63#6) : (pushBody b s).regs = s.regs := by
  rw [pushBody, if_neg h, storeByte_regs]

/-- Settles O17: the store ORs into one byte, which the invariant knows to be zero; the block operation clears all. -/
theorem pushbFrame : Obligations.PushbFrame := by
  intro s t b habsorb h
  cases (exec_pushb_of_absorb b habsorb).symm.trans h
  refine ⟨pushBody_phase b s, pushBody_ecode b s, pushBody_engine b s, pushBody_port b s, pushBody_resp b s,
    pushBody_draws b s, fun hroom => ?_, fun hfull a => ?_⟩
  · rw [pushBody_x_of_room b hroom]
    refine ⟨pushBody_regs_of_room b hroom, fun a => memRead1_orByte_other s.x b, memRead1_orByte_same s.x _ b,
      fun hinv => ?_⟩
    rw [memRead1_orByte_same, hinv.tail_clear habsorb _ (BitVec.le_refl _), BitVec.zero_or]
  · rw [pushBody_x_of_full b hfull, memRead1_zero]

/-! ### The invariant -/

theorem inv_of_idle {s : State} (hphase : s.phase = .idle) (hecode : s.ecode = .none) : Inv s := by
  constructor <;> simp [hphase, hecode]

/-- Settles O50: ECODE is 0 in IDLE, and the two clauses on the buffer are about other phases. -/
theorem invariantHoldsAtReset : Obligations.InvariantHoldsAtReset := inv_of_idle rfl rfl

/-- The invariant is about PHASE, ECODE, NB and X alone. -/
theorem Inv.congr {s t : State} (hs : Inv s) (hphase : t.phase = s.phase) (hecode : t.ecode = s.ecode)
    (hnb : t.nb = s.nb) (hx : t.x = s.x) : Inv t := by
  obtain ⟨hfault, htail, hdone⟩ := hs
  constructor
  · rw [hphase, hecode]
    exact hfault
  · rw [hphase, hnb, hx]
    exact htail
  · rw [hphase, hx]
    exact hdone

theorem Inv.ecode_eq_none {s : State} (hs : Inv s) (hf : s.phase ≠ .fault) : s.ecode = .none :=
  not_ne_iff.1 (mt hs.fault_iff.2 hf)

/-- Fault entry records a cause and leaves ABSORB and DONE. -/
theorem inv_raiseFault {code : Cause} (hcode : code ≠ .none) (s : State) : Inv (raiseFault code s) :=
  ⟨⟨fun _ => hcode, fun _ => rfl⟩, nofun, nofun⟩

/-- A clear buffer meets the invariant wherever NB stands. -/
theorem inv_of_x_eq_zero {s : State} (hf : s.phase ≠ .fault) (he : s.ecode = .none) (hx : s.x = Block.zero) : Inv s :=
  ⟨⟨fun h => absurd h hf, absurd he⟩, fun _ a _ => by rw [hx, memRead1_zero], fun _ => hx⟩

/-- An address from the next one on is past this one, unless this one ends the block. -/
theorem bufAddress_ne_of_le_succ {nb : BitVec 29} {a : BitVec 6} (hroom : bufAddress nb ≠ 63#6)
    (h : bufAddress (nb + 1#29) ≤ a) : bufAddress nb ≤ a ∧ a ≠ bufAddress nb := by
  have hnum : (bufAddress (nb + 1#29)).toNat = (bufAddress nb).toNat + 1 := by
    have hlt := mt (bufAddress_eq_63 nb).2 hroom
    rw [bufAddress_toNat, bufAddress_toNat, BitVec.toNat_add, BitVec.toNat_ofNat]
    omega
  rw [BitVec.le_def] at h ⊢
  exact ⟨by omega, fun e => by rw [e] at h; omega⟩

/-- A PUSHB that fills no block writes the one byte that is no longer in the clear tail. -/
theorem pushBody_keeps_inv {s : State} (hs : Inv s) (habsorb : s.phase = .absorb) (b : Byte) : Inv (pushBody b s) := by
  have hf : s.phase ≠ .fault := by simp [habsorb]
  by_cases hfull : bufAddress s.nb = 63#6
  · exact inv_of_x_eq_zero (by simpa using hf) (by simpa using hs.ecode_eq_none hf) (pushBody_x_of_full b hfull)
  · refine ⟨by simpa using hs.fault_iff, fun _ a ha => ?_, fun hdone => by simp [habsorb] at hdone⟩
    rw [pushBody_nb] at ha
    obtain ⟨hle, hne⟩ := bufAddress_ne_of_le_succ hfull ha
    rw [pushBody_x_of_room b hfull, memRead1_orByte_other s.x b hne]
    exact hs.tail_clear habsorb a hle

theorem runWord_keeps_inv {w : BitVec 16} {s t : State} (hs : Inv s) (h : runWord w s = .next t) : Inv t := by
  rcases runWord_cases h with ⟨-, rfl⟩ | ⟨-, -, rfl⟩ | ⟨-, -, rfl⟩ | ⟨i, -, -, -, -, rfl⟩ | ⟨-, hf, rfl⟩ |
    ⟨b, -, habsorb, rfl⟩ | ⟨-, habsorb, rfl⟩ | ⟨v, -, -, -, rfl⟩
  · exact hs.congr rfl rfl rfl rfl
  · exact hs.congr (respondZeroIf_phase _ s) (respondZeroIf_ecode _ s) (respondZeroIf_nb _ s) (respondZeroIf_x _ s)
  · exact inv_raiseFault (by decide) _
  · exact inv_raiseFault (by decide) _
  · exact inv_of_x_eq_zero nofun (hs.ecode_eq_none hf) rfl
  · exact pushBody_keeps_inv hs habsorb b
  · exact inv_of_x_eq_zero nofun ((finalBody_ecode s).trans (hs.ecode_eq_none (by simp [habsorb]))) rfl
  · exact hs.congr rfl rfl rfl rfl

/-- Settles O51: a micro-operation, a taken response and waiting write no field of the invariant, the reset event sets
IDLE, and each command word keeps it. -/
theorem everyStepKeepsTheInvariant : Obligations.EveryStepKeepsTheInvariant := by
  intro s t hs h
  rcases step_cases h with ⟨op, -, rfl⟩ | ⟨-, -, rfl⟩ | ⟨rest, -, -, rfl⟩ | ⟨rest, -, -, rfl⟩ | ⟨w, rest, -, -, hrun⟩
  · exact hs.congr (sequence_phase _ _) (sequence_ecode _ _) (sequence_nb _ _) (sequence_x _ _)
  · exact hs
  · exact inv_of_idle rfl rfl
  · exact hs.congr rfl rfl rfl rfl
  · exact runWord_keeps_inv (hs.congr (t := { s with port := rest }) rfl rfl rfl rfl) hrun

end Sys2Proof.Machine
end

section
/-! The writers of the datapath (10_state.md sections 1, 2, 3 and 5): of all command words only INIT, PUSHB and FINAL
write A to D, X, NB or LOVF. -/

namespace Sys2Proof.Machine

/-- Everything a command word can do to the datapath. -/
theorem runWord_datapath_cases {w : BitVec 16} {s t : State} (h : runWord w s = .next t) :
    (t.regs = s.regs ∧ t.x = s.x ∧ t.nb = s.nb ∧ t.lovf = s.lovf) ∨ (w = 0x1000#16 ∧ t = initBody s) ∨
    (∃ b, w = pushWord b ∧ t = pushBody b s) ∨ (w = 0x3000#16 ∧ t = finalBody s) := by
  rcases runWord_cases h with ⟨-, rfl⟩ | ⟨-, -, rfl⟩ | ⟨-, -, rfl⟩ | ⟨i, -, -, -, -, rfl⟩ | ⟨hw, -, rfl⟩ |
    ⟨b, hw, -, rfl⟩ | ⟨hw, -, rfl⟩ | ⟨v, -, -, -, rfl⟩
  · exact .inl ⟨rfl, rfl, rfl, rfl⟩
  · exact .inl (by simp)
  · exact .inl (by simp)
  · exact .inl (by simp)
  · exact .inr (.inl ⟨hw, rfl⟩)
  · exact .inr (.inr (.inl ⟨b, hw, rfl⟩))
  · exact .inr (.inr (.inr ⟨hw, rfl⟩))
  · exact .inl ⟨rfl, rfl, rfl, rfl⟩

/-- PUSHB sets LOVF only where NB wraps. -/
theorem nb_eq_last_of_lovfAfterPush {nb : BitVec 29} (h : lovfAfterPush nb false = true) : nb = 0x1FFFFFFF#29 := by
  by_contra hne
  rw [lovfAfterPush, if_neg hne] at h
  exact Bool.false_ne_true h

theorem lovfAfterPush_true (nb : BitVec 29) : lovfAfterPush nb true = true := ite_self _

/-- Settles O52, by which of the three writers the word is, if any. -/
theorem writersOfTheDatapath : Obligations.WritersOfTheDatapath := by
  intro s t w rest heng hport h
  rw [step_of_word heng hport] at h
  obtain ⟨-, hrest, hdraws⟩ := runWord_frame h
  rcases runWord_datapath_cases h with ⟨hregs, hx, hnb, hlovf⟩ | ⟨hw, rfl⟩ | ⟨b, hw, rfl⟩ | ⟨hw, rfl⟩
  · exact ⟨absurd hregs, absurd hx, absurd hnb, fun h1 h0 => absurd (h1.symm.trans (hlovf.symm.trans h0)) nofun,
      fun h0 h1 => absurd (h0.symm.trans (hlovf.symm.trans h1)) nofun, hdraws, hrest⟩
  · exact ⟨fun _ => .inl hw, fun _ => .inl hw, fun _ => .inl hw, fun _ _ => hw, fun _ => nofun, hdraws, hrest⟩
  · refine ⟨fun hregs => .inr (.inl ⟨b, hw, ?_⟩), fun _ => .inr (.inl ⟨b, hw⟩), fun _ => .inr ⟨b, hw⟩, fun h1 h0 => ?_,
      fun h0 h1 => ⟨⟨b, hw⟩, ?_⟩, hdraws, hrest⟩
    · by_contra hroom
      exact hregs (pushBody_regs_of_room (s := { s with port := rest }) b hroom)
    · rw [pushBody_lovf, h1, lovfAfterPush_true] at h0
      exact absurd h0.symm Bool.false_ne_true
    · rw [pushBody_lovf, h0] at h1
      rw [pushBody_nb, nb_eq_last_of_lovfAfterPush h1]
      exact ⟨rfl, rfl⟩
  · refine ⟨fun _ => .inr (.inr hw), fun _ => .inr (.inr hw), absurd (finalBody_nb _), fun h1 h0 => ?_, fun h0 h1 => ?_,
      hdraws, hrest⟩
    · rw [finalBody_lovf, h1] at h0
      exact absurd h0.symm Bool.false_ne_true
    · rw [finalBody_lovf, h0] at h1
      exact absurd h1 Bool.false_ne_true

end Sys2Proof.Machine
end

section
/-! The Compression Engine step by step (43_compression.md sections 1 to 3 and 6): what a step leaves unchanged, the
rotating form of the steps, and the sequencer as a refinement of `Compress`. -/

namespace Sys2Proof.Machine

/-! ### The round functions (R93, R94) -/

/-- What a mask selects and what its complement selects have no bit in common. -/
theorem and_and_not_and_eq_zero (b c d : Word) : (b &&& c) &&& (~~~b &&& d) = 0#32 := by
  ext i hi
  simp only [BitVec.getElem_and, BitVec.getElem_not, BitVec.getElem_zero]
  cases b[i] <;> simp

/-- At each bit one of the two selections is 0. -/
theorem f1_eq_xor (b c d : Word) : f1 b c d = (b &&& c) ^^^ (~~~b &&& d) := by
  ext i hi
  simp only [f1, BitVec.getElem_or, BitVec.getElem_xor, BitVec.getElem_and, BitVec.getElem_not]
  cases b[i] <;> simp

/-- Settles O27: the two halves of F1 share no bit, so OR, sum and exclusive OR of them agree; F2 is F1 by commuting. -/
theorem roundFunctionIdentities : Obligations.RoundFunctionIdentities := by
  refine ⟨fun b c d => ?_, f1_eq_xor, fun b c d => ?_⟩
  · exact (BitVec.add_eq_or_of_and_eq_zero _ _ (and_and_not_and_eq_zero b c d)).symm
  · rw [f2, f1, BitVec.and_comm b, BitVec.and_comm c]

/-! ### The frame of a step -/

theorem stepMod4_toNat (i : BitVec 6) : (stepMod4 i).toNat = i.toNat % 4 := by
  simp [stepMod4]

theorem engineStep_get_other (i : BitVec 6) {r : RegName} (h : r ≠ (roles (stepMod4 i)).a) (g : Regs) (x : Block) :
    (engineStep i g x).get r = g.get r :=
  Regs.get_set_other g _ h

/-- The four roles a are the four registers (R92). -/
theorem role_a_injective : Function.Injective fun m : BitVec 2 => (roles m).a := by decide

/-- R92: the steps with another `i mod 4` write another register. -/
theorem ne_role_a {i : BitVec 6} {m : BitVec 2} (h : i.toNat % 4 ≠ m.toNat) :
    (roles m).a ≠ (roles (stepMod4 i)).a :=
  role_a_injective.ne fun e => h (by rw [e, stepMod4_toNat])

/-- Settles O28: a step writes the registers alone, and of them the one in role a. -/
theorem stepFrame : Obligations.StepFrame := by
  intro s t i h
  cases (exec_decodeStep i s).symm.trans h
  refine ⟨rfl, rfl, rfl, rfl, rfl, rfl, rfl, rfl, rfl, fun hi => ?_, fun hi => ?_, fun hi => ?_, fun hi => ?_⟩
  · exact engineStep_get_other i (ne_role_a (m := 0#2) hi) s.regs s.x
  · exact engineStep_get_other i (ne_role_a (m := 1#2) hi) s.regs s.x
  · exact engineStep_get_other i (ne_role_a (m := 2#2) hi) s.regs s.x
  · exact engineStep_get_other i (ne_role_a (m := 3#2) hi) s.regs s.x

/-! ### The rotating form (R92) -/

/-- The registers in the order of their roles at a step. -/
def inRoles (m : BitVec 2) (g : Regs) : Regs :=
  ⟨g.get (roles m).a, g.get (roles m).b, g.get (roles m).c, g.get (roles m).d⟩

/-- From one step to the next each register moves on by one role, the written one into role b. -/
theorem roles_succ (m : BitVec 2) : roles (m + 1#2) = ⟨(roles m).d, (roles m).a, (roles m).b, (roles m).c⟩ := by
  revert m
  decide

theorem roles_ne_a (m : BitVec 2) :
    (roles m).b ≠ (roles m).a ∧ (roles m).c ≠ (roles m).a ∧ (roles m).d ≠ (roles m).a := by
  revert m
  decide

theorem stepMod4_add_one (i : BitVec 6) : stepMod4 (i + 1#6) = stepMod4 i + 1#2 := by
  revert i
  decide

/-- One rotating step on the registers in role order is one step of R91, read in the role order of the next index. -/
theorem rotatingStep_inRoles (i : BitVec 6) (g : Regs) (x : Block) :
    rotatingStep i (inRoles (stepMod4 i) g) x = inRoles (stepMod4 (i + 1#6)) (engineStep i g x) := by
  obtain ⟨hb, hc, hd⟩ := roles_ne_a (stepMod4 i)
  rw [stepMod4_add_one, inRoles, inRoles, roles_succ, engineStep_get_other i hb, engineStep_get_other i hc,
    engineStep_get_other i hd, engineStep, Regs.get_set_same, rotatingStep]

/-- n rotating steps are the first n steps, read in the role order of step n. -/
theorem rotatingSteps_eq_inRoles (n : Nat) (g : Regs) (x : Block) :
    rotatingSteps n g x = inRoles (stepMod4 (BitVec.ofNat 6 n)) (runSteps n g x) := by
  induction n with
  | zero => rfl
  | succ n ih => rw [rotatingSteps, ih, rotatingStep_inRoles, runSteps_succ, BitVec.ofNat_add_ofNat]

theorem stepMod4_four_mul (n : Nat) : stepMod4 (BitVec.ofNat 6 (4 * n)) = 0#2 := by
  apply BitVec.eq_of_toNat_eq
  rw [stepMod4_toNat, BitVec.toNat_ofNat]
  simp

/-- Settles O29: the role order of a multiple of four is A, B, C, D. -/
theorem registerCyclingAndRotatingForm : Obligations.RegisterCyclingAndRotatingForm := by
  refine ⟨rfl, rfl, rfl, rfl, fun i => ?_, fun g x n _ => ?_⟩
  · rw [stepMod4_add_one, roles_succ]
  · rw [rotatingSteps_eq_inRoles, stepMod4_four_mul]
    rfl

/-! ### The sequencer (R105) -/

theorem sequence_of_last {op : BlockOp} {s : State} (h : op.index = 63#6) :
    sequence op s = { s with regs := chain op.saved s.regs, engine := none } :=
  if_pos h

theorem sequence_of_more {op : BlockOp} {s : State} (h : op.index ≠ 63#6) :
    sequence op s = { s with engine := some ⟨op.index + 1#6, op.saved⟩ } :=
  if_neg h

/-- `Host.Core.run` by its last step. -/
theorem run_then_step {s t : State} {n : Nat}
    (h : (Sys2Proof.core.run n s : Host.Outcome State Fault Refusal) = .next t) :
    (Sys2Proof.core.run (n + 1) s : Host.Outcome State Fault Refusal) = step t := by
  obtain ⟨u, hu⟩ := step_next t
  exact (run_add h 1).trans ((run_one hu).trans hu.symm)

/-- The block after its first n steps, before it ends. -/
theorem run_block {s : State} (h : s.engine = some ⟨0#6, s.regs⟩) {n : Nat} (hn : n ≤ 63) :
    (Sys2Proof.core.run n s : Host.Outcome State Fault Refusal) =
      .next { s with engine := some ⟨BitVec.ofNat 6 n, s.regs⟩, regs := runSteps n s.regs s.x } := by
  induction n with
  | zero =>
    rw [run_zero, runSteps_zero, ← h]
  | succ n ih =>
    have hmore : BitVec.ofNat 6 n ≠ 63#6 := fun e => by
      have := congrArg BitVec.toNat e
      simp at this
      omega
    rw [run_then_step (ih (by omega)), step_of_engine rfl, sequence_of_more hmore, BitVec.ofNat_add_ofNat]
    rfl

/-- The step of index 63 chains and ends the block. -/
theorem step_of_last_index (s : State) (saved g : Regs) :
    step { s with engine := some ⟨63#6, saved⟩, regs := g } =
      .next { s with engine := none, regs := chain saved (engineStep 63#6 g s.x) } := by
  rw [step_of_engine rfl, sequence_of_last rfl]
  rfl

/-- Settles O32: by induction on n, and after 63 steps one more step chains. -/
theorem sequencerRefinesCompress : Obligations.SequencerRefinesCompress := by
  refine fun s h => ⟨fun n => run_block h, ?_⟩
  rw [compress_eq, runSteps_succ 63]
  exact (run_then_step (run_block h (Nat.le_refl 63))).trans (step_of_last_index s s.regs _)

end Sys2Proof.Machine
end

section
/-! The block buffer by bytes (20_memory.md section 2, R33): a block is its 64 bytes, so the OR-store and the byte
write are compared byte by byte. -/

namespace Sys2Proof.Machine

/-- Two blocks that agree on every byte are the same. -/
theorem Block.ext_byte {x y : Block} (h : ∀ a, memRead1 x a = memRead1 y a) : x = y := by
  apply Block.ext_word
  intro k
  have hk : memRead4 x k = memRead4 y k := by simp only [memRead4_eq_append_memRead1, h]
  exact hk

/-- Settles O36: the OR with a zero byte is the byte written, and both stores leave the other bytes. -/
theorem orStoreAgreesWithMemWrite : Obligations.OrStoreAgreesWithMemWrite := by
  intro x a v hzero
  apply Block.ext_byte
  intro b
  by_cases h : b = a
  · rw [h, memRead1_orByte_same, memRead1_memWrite1_same, hzero, BitVec.zero_or]
  · rw [memRead1_orByte_other x v h, memRead1_memWrite1_other x v h]

end Sys2Proof.Machine
end

section
/-! Unpack (44_unpacker.md section 1, R108 and R111): a digest byte is a lane of its register, as a packed byte is one
of its word. -/

namespace Sys2Proof.Machine

/-- R108: digest byte j is lane `j mod 4` of register number `j / 4`. -/
theorem unpackByte_eq_lane (g : Regs) (j : BitVec 4) :
    unpackByte g j = (regNumbered g (j.toNat / 4)).extractLsb' (8 * (j.toNat % 4)) 8 := by
  have hmask : (0xFF#32).setWidth 8 = BitVec.allOnes 8 := by decide
  rw [unpackByte, BitVec.setWidth_and, hmask, BitVec.and_allOnes, BitVec.setWidth_ushiftRight_eq_extractLsb,
    Regs.word_eq, digReg_toNat, digShift_eq]

theorem unpack_getD (g : Regs) (j : BitVec 4) : (unpack g).getD j.toNat 0#8 = unpackByte g j := by
  simp [unpack, j.isLt]

theorem unpack_getD_lane (g : Regs) {i q : Nat} (hi : i < 4) (hq : q < 4) :
    (unpack g).getD (4 * i + q) 0#8 = (regNumbered g i).extractLsb' (8 * q) 8 := by
  have hj : (BitVec.ofNat 4 (4 * i + q)).toNat = 4 * i + q := by
    rw [BitVec.toNat_ofNat]
    omega
  rw [← hj, unpack_getD, unpackByte_eq_lane, hj]
  congr 2 <;> omega

theorem packWord_unpack (g : Regs) {i : Nat} (hi : i < 4) : packWord (unpack g) i = regNumbered g i := by
  have h (q : Nat) := unpack_getD_lane g hi (q := q)
  rw [packWord_eq_append, h 3 (by decide), h 2 (by decide), h 1 (by decide), ← Nat.add_zero (4 * i),
    h 0 (by decide)]
  exact (word_eq_append_lanes _).symm

theorem pack_unpack (g : Regs) : pack (unpack g) = [g.a, g.b, g.c, g.d] := by
  rw [pack, length_unpack]
  exact List.map_congr_left (g := regNumbered g) fun i hi => packWord_unpack g (List.mem_range.1 hi)

/-- The first four words of a sequence as registers. -/
def leadingRegs (p : List Word) : Regs := ⟨p.getD 0 0#32, p.getD 1 0#32, p.getD 2 0#32, p.getD 3 0#32⟩

theorem regNumbered_leadingRegs (p : List Word) {i : Nat} (hi : i < 4) :
    regNumbered (leadingRegs p) i = p.getD i 0#32 := by
  interval_cases i <;> rfl

theorem unpack_pack {m : List Byte} (hm : m.length = 16) : unpack (leadingRegs (pack m)) = m := by
  refine List.ext_getElem (by rw [length_unpack, hm]) fun p hp hp' => ?_
  have hq : p % 4 < 4 := Nat.mod_lt p (by decide)
  have h := unpack_getD_lane (leadingRegs (pack m)) (i := p / 4) (by omega) hq
  rw [regNumbered_leadingRegs _ (by omega), pack_getD, packWord_lane m _ hq, Nat.div_add_mod] at h
  rwa [List.getD_eq_getElem _ _ hp, List.getD_eq_getElem _ _ hp'] at h

/-- Settles O39: each byte is one lane both ways, and the 16 bytes are the four lanes of the four registers. -/
theorem unpackInvertsPack : Obligations.UnpackInvertsPack := ⟨fun _ => unpack_pack, pack_unpack⟩

end Sys2Proof.Machine
end

section
/-! Hex (45_hex.md, R113 to R116): each byte gives its two digits, so character k is a digit of byte `k / 2`. -/

namespace Sys2Proof.Machine

theorem length_hexRender (c : HexCase) (m : List Byte) : (hexRender c m).length = 2 * m.length := by
  induction m with
  | nil => rfl
  | cons v m ih =>
    rw [List.length_cons, Nat.mul_add, ← ih]
    rfl

/-- Digit q of byte p, high nibble first. -/
theorem hexRender_getD (c : HexCase) {m : List Byte} {p : Nat} (hp : p < m.length) :
    (hexRender c m).getD (2 * p) 0#8 = digitCode c (highNibble (m.getD p 0#8)) ∧
    (hexRender c m).getD (2 * p + 1) 0#8 = digitCode c (lowNibble (m.getD p 0#8)) := by
  induction m generalizing p with
  | nil => exact absurd hp (Nat.not_lt_zero p)
  | cons v m ih =>
    cases p with
    | zero => exact ⟨rfl, rfl⟩
    | succ p => exact ih (Nat.lt_of_succ_lt_succ hp)

/-- The character of RDH k is character k of the rendering of the unpacked registers. -/
theorem hexChar_eq_hexRender_getD (g : Regs) (k : BitVec 5) :
    hexChar g k = (hexRender Config.hexCase (unpack g)).getD k.toNat 0#8 := by
  have hbyte := unpack_getD g (hexByteIndex k)
  have hlt : k.toNat / 2 < (unpack g).length := by
    rw [length_unpack]
    omega
  obtain ⟨hhigh, hlow⟩ := hexRender_getD Config.hexCase hlt
  rw [hexByteIndex_toNat] at hbyte
  rw [hbyte] at hhigh hlow
  rcases Nat.mod_two_eq_zero_or_one k.toNat with h | h
  · rw [show k.toNat = 2 * (k.toNat / 2) by omega, hhigh, hexChar, if_pos ((hexHighNibble_iff k).2 h)]
  · rw [show k.toNat = 2 * (k.toNat / 2) + 1 by omega, hlow, hexChar, if_neg (by rw [hexHighNibble_iff]; omega)]

/-- Settles O40: the rendering by induction on the bytes, and RDH's digit by the parity of its index. -/
theorem hexRendersHighNibbleFirst : Obligations.HexRendersHighNibbleFirst :=
  ⟨fun c m => ⟨length_hexRender c m, fun _ => hexRender_getD c⟩, hexChar_eq_hexRender_getD⟩

/-- R114: the upper-case codes are those of 0 to 9 and A to F. -/
theorem digitCode_upper_range (n : BitVec 4) :
    (0x30#8 ≤ digitCode .upper n ∧ digitCode .upper n ≤ 0x39#8) ∨
      (0x41#8 ≤ digitCode .upper n ∧ digitCode .upper n ≤ 0x46#8) := by
  revert n
  decide

/-- Every character rendered is the code of some digit. -/
theorem exists_digitCode_of_mem_hexRender {c : HexCase} {m : List Byte} {v : Byte} (h : v ∈ hexRender c m) :
    ∃ n, v = digitCode c n := by
  obtain ⟨b, -, hb⟩ := List.mem_flatMap.1 h
  rcases List.mem_pair.1 hb with e | e
  · exact ⟨_, e⟩
  · exact ⟨_, e⟩

/-- Settles O41: a digest renders 16 bytes, and every character is the code of a digit. -/
theorem digestIsThirtyTwoUpperCaseHexDigits : Obligations.DigestIsThirtyTwoUpperCaseHexDigits := by
  refine ⟨fun m => ⟨?_, fun v hv => ?_⟩, fun s t k hdone h => ?_⟩
  · rw [digest, length_hexRender, length_unpack]
  · obtain ⟨n, rfl⟩ := exists_digitCode_of_mem_hexRender hv
    exact digitCode_upper_range n
  · cases (exec_rdh_of_done hdone rfl).symm.trans h
    refine ⟨_, rfl, ?_⟩
    have hrange : (0x30#8 ≤ hexChar s.regs k ∧ hexChar s.regs k ≤ 0x39#8) ∨
      (0x41#8 ≤ hexChar s.regs k ∧ hexChar s.regs k ≤ 0x46#8) := digitCode_upper_range _
    simp only [BitVec.le_def, BitVec.toNat_setWidth, BitVec.toNat_ofNat] at hrange ⊢
    omega

/-- Settles O34: one run of the 64 steps, and the digests of one-block messages. -/
theorem knownAnswers : Obligations.KnownAnswers :=
  ⟨by decide +kernel, compress_iv_emptyBlock, by decide +kernel, by decide +kernel⟩

end Sys2Proof.Machine
end

section
/-! Pad (42_padder.md section 1, R78 to R81): word by word, the padded message is the packed message with one byte
0x80 more, but for the length word. -/

namespace Sys2Proof.Machine

/-- Beyond the end the packed words are 0. -/
theorem packWord_eq_zero {m : List Byte} {i : Nat} (h : (m.length + 3) / 4 ≤ i) : packWord m i = 0#32 := by
  rw [← pack_getD, List.getD_eq_default]
  rwa [length_pack]

/-- The message's last word lies before the length word, and the byte after the message too. -/
theorem length_pack_le_lengthIndex (n : Nat) : (n + 3) / 4 ≤ lengthIndex (8 * n) ∧ n / 4 < lengthIndex (8 * n) := by
  rw [lengthIndex_eq]
  omega

theorem shiftRight_five_eight_mul (n : Nat) : (8 * n) >>> 5 = n / 4 := by
  rw [Nat.shiftRight_eq_div_pow]
  omega

/-- Reading a list of words after a write inside it. -/
theorem getD_set_word {p : List Word} {i : Nat} (hi : i < p.length) (v : Word) (j : Nat) :
    (p.set i v).getD j 0#32 = if j = i then v else p.getD j 0#32 := by
  rw [List.getD_eq_getElem?_getD, List.getElem?_set, List.getD_eq_getElem?_getD]
  by_cases h : i = j
  · simp [h, h ▸ hi]
  · simp [h, Ne.symm h]

/-- Zero extension to n words (R78) changes no reading when no word lies beyond. -/
theorem getD_zeroExtend {w : List Word} {n : Nat} (hw : w.length ≤ n) (i : Nat) :
    ((List.range n).map fun k => w.getD k 0#32).getD i 0#32 = w.getD i 0#32 := by
  by_cases h : i < n
  · simp [h]
  · simp [h, hw.trans (Nat.le_of_not_lt h)]

theorem packWord_terminator (m : List Byte) (i : Nat) : packWord (m ++ [0x80#8]) i =
    (pack m).getD i 0#32 ||| (if i = m.length / 4 then 0x80#32 <<< (8 * (m.length % 4)) else 0#32) := by
  rw [packWord_push, pack_getD]
  rfl

/-- R79 and R80, word by word: the length word, the word of the terminator, and the packed words. -/
theorem pad_pack_getD (m : List Byte) (i : Nat) : (pad (pack m) m.length).getD i 0#32 =
    if i = lengthIndex (8 * m.length) then BitVec.ofNat 32 (8 * m.length) else packWord (m ++ [0x80#8]) i := by
  obtain ⟨hpack, hterm⟩ := length_pack_le_lengthIndex m.length
  have hext := getD_zeroExtend (w := pack m) (n := lengthIndex (8 * m.length) + 2) (by rw [length_pack]; omega)
  have hbit : 8 * m.length % 32 = 8 * (m.length % 4) := by omega
  rw [pad, shiftRight_five_eight_mul, getD_set_word (by simp), getD_set_word (by simp; omega), hext, hext,
    packWord_terminator, hbit]
  congr 1
  by_cases h : i = m.length / 4
  · rw [if_pos h, if_pos h, h]
  · rw [if_neg h, if_neg h, BitVec.or_zero]

/-- The padded length in words, from the byte count (R81). -/
theorem length_pad_eq (w : List Word) (n : Nat) : (pad w n).length = 16 * ((n + 8) >>> 6 + 1) := by
  rw [length_pad, lengthIndex_eq, Nat.shiftRight_eq_div_pow]
  omega

/-- Settles O38: the padded message word by word, and arithmetic on the byte count. -/
theorem paddedMessage : Obligations.PaddedMessage := by
  intro m N P idx
  have hidx : idx = 16 * ((N + 8) / 64) + 14 := lengthIndex_eq N
  have hlen : P.length = 16 * ((N + 8) >>> 6 + 1) := length_pad_eq _ _
  have hword (i : Nat) : P.getD i 0#32 = if i = idx then BitVec.ofNat 32 (8 * N) else packWord (m ++ [0x80#8]) i :=
    pad_pack_getD m i
  refine ⟨hlen, length_pad _ _, ?_, ?_, ?_, fun i hi => ?_, ?_⟩
  · omega
  · rw [hword, if_pos rfl]
  · rw [hword, if_neg (by omega), packWord_eq_zero (by simp; omega)]
  · rw [hword, if_neg hi, packWord_terminator]
  · split <;> omega

end Sys2Proof.Machine
end

section
/-! The bytes of a message in the machine (41_packer.md section 2): after INIT and n PUSHB the machine holds the whole
blocks of the packed message in A to D and the rest of it in X. -/

namespace Sys2Proof.Machine

/-! ### Blocks of packed words -/

theorem word_blockAt_pack (m : List Byte) (q : Nat) (k : BitVec 4) :
    (blockAt (pack m) q).word k = packWord m (16 * q + k.toNat) := by
  rw [word_blockAt, pack_getD]

/-- Past the last byte of a message its blocks are zero. -/
theorem blockAt_pack_eq_zero {m : List Byte} {q : Nat} (h : m.length ≤ 64 * q) : blockAt (pack m) q = Block.zero := by
  apply Block.ext_word
  intro k
  rw [word_blockAt_pack, packWord_eq_zero (by omega), Block.word_zero]

/-- One more byte leaves the words before its own. -/
theorem packWord_push_before {m : List Byte} {i : Nat} (b : Byte) (h : i < m.length / 4) :
    packWord (m ++ [b]) i = packWord m i := by
  rw [packWord_push, if_neg (Nat.ne_of_lt h), BitVec.or_zero]

theorem foldBlocks_pack_push (m : List Byte) (b : Byte) :
    foldBlocks (pack (m ++ [b])) (m.length / 64) = foldBlocks (pack m) (m.length / 64) := by
  apply foldBlocks_congr
  intro i hi
  rw [pack_getD, pack_getD, packWord_push_before b (by omega)]

/-- The buffer address after n bytes, whether or not NB wrapped: 64 divides 2^29. -/
theorem ofNat_toNat_mod_64 (n : Nat) : (BitVec.ofNat 29 n).toNat % 64 = n % 64 := by
  rw [BitVec.toNat_ofNat]
  omega

/-- The byte store extends the block by the next byte of the message. -/
theorem orByte_blockAt_pack (m : List Byte) (b : Byte) :
    orByte (blockAt (pack m) (m.length / 64)) (bufAddress (BitVec.ofNat 29 m.length)) b =
      blockAt (pack (m ++ [b])) (m.length / 64) := by
  have hword : m.length % 64 % 4 = m.length % 4 := by omega
  apply Block.ext_word
  intro k
  have hk : BitVec.ofNat 4 (m.length % 64 / 4) = k ↔ 16 * (m.length / 64) + k.toNat = m.length / 4 := by
    rw [BitVec.toNat_eq, BitVec.toNat_ofNat]
    omega
  rw [orByte_bufAddress, ofNat_toNat_mod_64, Block.word_setWord, hword, word_blockAt_pack m _ k,
    word_blockAt_pack (m ++ [b]), packWord_push]
  by_cases h : BitVec.ofNat 4 (m.length % 64 / 4) = k
  · rw [if_pos h, if_pos (hk.1 h), h, word_blockAt_pack]
  · rw [if_neg h, if_neg (mt hk.2 h), BitVec.or_zero]

/-! ### The state after the bytes of a message -/

/-- The state R72 says INIT and one PUSHB a byte of m leave. -/
def absorbed (m : List Byte) (s : State) : State :=
  { s with
    x := blockAt (pack m) (m.length / 64)
    nb := BitVec.ofNat 29 m.length
    phase := .absorb
    lovf := decide (2 ^ 29 ≤ m.length)
    regs := foldBlocks (pack m) (m.length / 64) }

theorem initBody_eq_absorbed (s : State) : initBody s = absorbed [] s := by
  rw [initBody, ← blockAt_pack_eq_zero (m := []) (q := 0) (Nat.le_refl 0)]
  rfl

/-- LOVF says whether the count reached 2^29: it did before, or NB wraps now. -/
theorem lovfAfterPush_count (n : Nat) :
    lovfAfterPush (BitVec.ofNat 29 n) (decide (2 ^ 29 ≤ n)) = decide (2 ^ 29 ≤ n + 1) := by
  rw [lovfAfterPush_eq, BitVec.toNat_ofNat]
  split
  · exact (decide_eq_true (by omega)).symm
  · exact decide_eq_decide.2 (by omega)

theorem storeByte_absorbed (m : List Byte) (b : Byte) (s : State) : storeByte b (absorbed m s) =
    { absorbed (m ++ [b]) s with
      x := blockAt (pack (m ++ [b])) (m.length / 64)
      regs := foldBlocks (pack (m ++ [b])) (m.length / 64) } := by
  simp only [storeByte, absorbed, orByte_blockAt_pack, lovfAfterPush_count, BitVec.ofNat_add_ofNat,
    foldBlocks_pack_push, List.length_append, List.length_singleton]

/-- R72 for one more byte: where it fills a block, the block is folded in and the next one is empty. -/
theorem pushBody_absorbed (m : List Byte) (b : Byte) (s : State) :
    pushBody b (absorbed m s) = absorbed (m ++ [b]) s := by
  have hlen : (m ++ [b]).length = m.length + 1 := List.length_append
  by_cases hr : m.length % 64 = 63
  · have hq : (m ++ [b]).length / 64 = m.length / 64 + 1 := by omega
    rw [pushBody_of_full b ((ofNat_toNat_mod_64 m.length).trans hr), storeByte_absorbed, blockOp, absorbed, hq,
      foldBlocks_succ, blockAt_pack_eq_zero (by omega)]
  · have hq : (m ++ [b]).length / 64 = m.length / 64 := by omega
    rw [pushBody_of_room b (mt (ofNat_toNat_mod_64 m.length).symm.trans hr), storeByte_absorbed, absorbed, hq]

/-! ### The run -/

/-- A command word that decodes, taken from the port where the core runs it. -/
theorem step_of_instr {s : State} {w : BitVec 16} {i : Instr} {rest : List PortEvent} (heng : s.engine = none)
    (hd : decodeCommand w = .instr i) : step { s with port := .cmd w :: rest } = exec i { s with port := rest } := by
  rw [step_of_word (s := { s with port := .cmd w :: rest }) heng rfl, runWord_of_instr hd]

theorem run_absorb {s : State} (heng : s.engine = none) (hf : s.phase ≠ .fault) (m : List Byte)
    {rest : List PortEvent} (hport : s.port = cmds (0x1000#16 :: m.map pushWord) ++ rest) :
    (Sys2Proof.core.run (m.length + 1) s : Host.Outcome State Fault Refusal) =
      .next (absorbed m { s with port := rest }) := by
  induction m using List.reverseRecOn generalizing rest with
  | nil =>
    have hstep : step s = .next (absorbed [] { s with port := rest }) := by
      rw [step_of_word (rest := rest) heng hport, runWord_of_instr decodeCommand_init,
        exec_init_of_not_fault (s := { s with port := rest }) hf, initBody_eq_absorbed]
    exact run_one hstep
  | append_singleton m b ih =>
    have hbefore : s.port = cmds (0x1000#16 :: m.map pushWord) ++ .cmd (pushWord b) :: rest := by
      rw [hport]
      simp [cmds]
    have hstep : step (absorbed m { s with port := .cmd (pushWord b) :: rest }) =
        .next (absorbed (m ++ [b]) { s with port := rest }) := by
      rw [← pushBody_absorbed, ← exec_pushb_of_absorb b rfl]
      exact step_of_instr (s := absorbed m s) heng (decodeCommand_pushWord b)
    rw [List.length_append]
    exact (run_then_step (ih hbefore)).trans hstep

/-- Settles O55: `absorbed` is the state the statement writes out. -/
theorem bufferInvariantOfAMessage : Obligations.BufferInvariantOfAMessage :=
  fun _ m _ heng hf hport => run_absorb heng hf m hport

end Sys2Proof.Machine
end

section
/-! The whole message (40_control.md section 5, R66): FINAL folds in the blocks of the padded message that are left,
and the reads answer the digest. -/

namespace Sys2Proof.Machine

/-! ### The blocks of the padded message -/

/-- The length word's block (R80). -/
theorem blockAt_pad_last (m : List Byte) : blockAt (pad (pack m) m.length) ((m.length + 8) / 64) =
    (blockAt (pack (m ++ [0x80#8])) ((m.length + 8) / 64)).setWord 14#4 (BitVec.ofNat 32 (8 * m.length)) := by
  apply Block.ext_word
  intro k
  have hk : 16 * ((m.length + 8) / 64) + k.toNat = lengthIndex (8 * m.length) ↔ 14#4 = k := by
    rw [lengthIndex_eq, BitVec.toNat_eq, Nat.add_left_cancel_iff, eq_comm]
    rfl
  simp only [Block.word_setWord, word_blockAt, pad_pack_getD, hk, pack_getD]

/-- Every other block is packed from the message with the terminator. -/
theorem blockAt_pad_of_ne {m : List Byte} {q : Nat} (h : q ≠ (m.length + 8) / 64) :
    blockAt (pad (pack m) m.length) q = blockAt (pack (m ++ [0x80#8])) q := by
  apply Block.ext_word
  intro k
  have hk : 16 * q + k.toNat ≠ lengthIndex (8 * m.length) := by
    rw [lengthIndex_eq]
    omega
  rw [word_blockAt, pad_pack_getD, if_neg hk, word_blockAt_pack]

/-- The whole blocks of the message are blocks of the padded message. -/
theorem foldBlocks_pad (m : List Byte) :
    foldBlocks (pad (pack m) m.length) (m.length / 64) = foldBlocks (pack m) (m.length / 64) := by
  apply foldBlocks_congr
  intro i hi
  rw [pad_pack_getD, if_neg (by rw [lengthIndex_eq]; omega), packWord_push_before _ (by omega), pack_getD]

/-! ### FINAL -/

/-- The length is counted mod 2^32 and NB mod 2^29, so NB suffices. -/
theorem bitLength_ofNat (n : Nat) : bitLength (BitVec.ofNat 29 n) = BitVec.ofNat 32 (8 * n) := by
  apply BitVec.eq_of_toNat_eq
  simp only [bitLength_eq, BitVec.toNat_ofNat]
  omega

theorem finalBody_regs_of_room {s : State} (h : s.nb.toNat % 64 < 56) : (finalBody s).regs =
    compress s.regs ((orByte s.x (bufAddress s.nb) 0x80#8).setWord 14#4 (bitLength s.nb)) := by
  rw [finalBody_of_room h]
  rfl

theorem finalBody_regs_of_no_room {s : State} (h : 56 ≤ s.nb.toNat % 64) : (finalBody s).regs =
    compress (compress s.regs (orByte s.x (bufAddress s.nb) 0x80#8)) (Block.zero.setWord 14#4 (bitLength s.nb)) := by
  rw [finalBody_of_no_room h]
  rfl

theorem digestState_eq_foldBlocks (m : List Byte) :
    digestState m = foldBlocks (pad (pack m) m.length) ((m.length + 8) / 64 + 1) := by
  rw [digestState, md5State, length_pad, lengthIndex_eq]
  congr 1
  omega

/-- The block FINAL completes is the last of the padded message, or the last but one and the length follows in a block
of its own. -/
theorem finalBody_absorbed_regs (m : List Byte) (s : State) : (finalBody (absorbed m s)).regs = digestState m := by
  have hr : (absorbed m s).nb.toNat % 64 = m.length % 64 := ofNat_toNat_mod_64 m.length
  have hx : orByte (absorbed m s).x (bufAddress (absorbed m s).nb) 0x80#8 =
    blockAt (pack (m ++ [0x80#8])) (m.length / 64) := orByte_blockAt_pack m 0x80#8
  have hlen : bitLength (absorbed m s).nb = BitVec.ofNat 32 (8 * m.length) := bitLength_ofNat m.length
  have hregs : (absorbed m s).regs = foldBlocks (pad (pack m) m.length) (m.length / 64) := (foldBlocks_pad m).symm
  rw [digestState_eq_foldBlocks, foldBlocks_succ, blockAt_pad_last]
  rcases Nat.lt_or_ge (m.length % 64) 56 with hroom | hroom
  · have hq : (m.length + 8) / 64 = m.length / 64 := by omega
    rw [finalBody_regs_of_room (by omega), hx, hlen, hregs, hq]
  · have hq : (m.length + 8) / 64 = m.length / 64 + 1 := by omega
    have hzero : blockAt (pack (m ++ [0x80#8])) (m.length / 64 + 1) = Block.zero :=
      blockAt_pack_eq_zero (by rw [List.length_append, List.length_singleton]; omega)
    rw [finalBody_regs_of_no_room (by omega), hx, hlen, hregs, hq, hzero, foldBlocks_succ, blockAt_pad_of_ne (by omega)]

/-- FINAL writes A to D, clears X and sets DONE (R82), and nothing else. -/
theorem finalBody_eq (s : State) :
    finalBody s = { s with regs := (finalBody s).regs, x := Block.zero, phase := .done } := by
  unfold finalBody makeRoom
  split <;> rfl

theorem finalBody_absorbed (m : List Byte) (s : State) : finalBody (absorbed m s) = afterMessage m s := by
  rw [finalBody_eq, finalBody_absorbed_regs]
  rfl

/-! ### The run -/

theorem run_message {s : State} (heng : s.engine = none) (hf : s.phase ≠ .fault) (m : List Byte)
    {rest : List PortEvent} (hport : s.port = cmds (messageWords m) ++ rest) :
    (Sys2Proof.core.run (m.length + 2) s : Host.Outcome State Fault Refusal) =
      .next (afterMessage m { s with port := rest }) := by
  have hbefore : s.port = cmds (0x1000#16 :: m.map pushWord) ++ .cmd 0x3000#16 :: rest := by
    rw [hport]
    simp [cmds, messageWords]
  have hstep : step (absorbed m { s with port := .cmd 0x3000#16 :: rest }) =
      .next (afterMessage m { s with port := rest }) := by
    rw [← finalBody_absorbed, ← exec_final_of_absorb rfl]
    exact step_of_instr (s := absorbed m s) heng decodeCommand_final
  exact (run_then_step (run_absorb heng hf m hbefore)).trans hstep

/-- Settles O56: the run ends in DONE with the digest in A to D, where the three reads are permitted. -/
theorem wholeMessageLaw : Obligations.WholeMessageLaw := by
  intro s m rest hinv heng hf hport
  refine ⟨_, run_message heng hf m hport, rfl, rfl, hinv.ecode_eq_none hf, rfl, rfl, fun r => ?_, fun j => ?_,
    fun k => ?_⟩
  · exact exec_rdw_of_permitted (.inr rfl) rfl
  · exact exec_rdb_of_done rfl (by rw [unpack_getD])
  · exact exec_rdh_of_done rfl (by rw [hexChar_eq_hexRender_getD]; rfl)

end Sys2Proof.Machine
end

section
/-! The pseudo-instruction DIGEST (30_encoding.md section 8, R57): the words of a message and 32 reads, which answer
the digest character by character. -/

namespace Sys2Proof.Machine

theorem pushsWords_eq (text : String) : pushsWords text = (utf8Bytes text).map pushWord :=
  List.map_congr_left fun b _ => (append_eq_asmWord (k := 8) rfl 0x20#8 b).symm

theorem assemble_digest (text : String) :
    assemble (.digest text) = some (messageWords (utf8Bytes text) ++ rdhexWords) := by
  simp [assemble, AsmLine.wellFormed, pushsWords_eq, messageWords]

/-- The response to RDH n in DONE. -/
def rdhResponse (g : Regs) (n : Nat) : Word := (hexChar g (BitVec.ofNat 5 n)).setWidth 32

/-- A run of RDH words in DONE adds their responses in order. -/
theorem run_rdh {ns : List Nat} (hns : ∀ n ∈ ns, n < 2 ^ 5) {rest : List PortEvent} {s : State}
    (heng : s.engine = none) (hdone : s.phase = .done) (hport : s.port = cmds (ns.map (asmWord 0x6000)) ++ rest) :
    (Sys2Proof.core.run ns.length s : Host.Outcome State Fault Refusal) =
      .next { s with port := rest, resp := s.resp ++ ns.map (rdhResponse s.regs) } := by
  induction ns generalizing s with
  | nil =>
    have hs : s = { s with port := rest, resp := s.resp ++ [] } := by
      rw [List.append_nil, show rest = s.port from hport.symm]
    exact (run_zero s).trans (congrArg _ hs)
  | cons n ns ih =>
    obtain ⟨hn, hns⟩ := List.forall_mem_cons.1 hns
    have hstep : step s = .next { s with
        port := cmds (ns.map (asmWord 0x6000)) ++ rest, resp := s.resp ++ [rdhResponse s.regs n] } := by
      rw [step_of_word heng hport, runWord_of_instr (decodeCommand_asmWord_rdh hn)]
      exact exec_rdh_of_done hdone rfl
    have hrun := ih hns (s := { s with
        port := cmds (ns.map (asmWord 0x6000)) ++ rest, resp := s.resp ++ [rdhResponse s.regs n] }) heng hdone rfl
    rw [List.append_assoc] at hrun
    exact (run_succ hstep _).trans hrun

/-- The characters of the rendering are those of RDH 0 to RDH 31. -/
theorem hexRender_unpack_eq_map (g : Regs) :
    hexRender Config.hexCase (unpack g) = (List.range 32).map fun n => hexChar g (BitVec.ofNat 5 n) := by
  have hlen : (hexRender Config.hexCase (unpack g)).length = 32 := by rw [length_hexRender, length_unpack]
  refine List.ext_getElem (by simp [hlen]) fun n hn _ => ?_
  have hmod : n % 32 = n := Nat.mod_eq_of_lt (hn.trans_eq hlen)
  simp [hexChar_eq_hexRender_getD, hmod, hn]

/-- Settles O57: the words run INIT, the bytes and FINAL, and then the 32 reads. -/
theorem digestPseudoInstruction : Obligations.DigestPseudoInstruction := by
  intro text s rest _ heng hf
  refine ⟨_, assemble_digest text, fun hport => ?_⟩
  have hmessage : s.port = cmds (messageWords (utf8Bytes text)) ++ (cmds rdhexWords ++ rest) := by
    rw [hport]
    simp [cmds]
  have hrun := run_add (run_message heng hf (utf8Bytes text) hmessage) 32
  have hread := run_rdh (ns := List.range 32) (fun n => List.mem_range.1) (rest := rest)
    (s := afterMessage (utf8Bytes text) { s with port := cmds rdhexWords ++ rest }) heng rfl rfl
  have hlen : (messageWords (utf8Bytes text) ++ rdhexWords).length = (utf8Bytes text).length + 2 + 32 := by
    simp [messageWords, rdhexWords]
  have hchars : (digest (utf8Bytes text)).map (fun v => v.setWidth 32) =
      (List.range 32).map (rdhResponse (digestState (utf8Bytes text))) := by
    rw [digest, hexRender_unpack_eq_map, List.map_map]
    rfl
  rw [hlen, hchars]
  exact hrun.trans hread

end Sys2Proof.Machine
end
